-- ==== Sys2Proof/Word.lean ====
section
/-!
DEFINITION. The widths of the block (00_scope.md R2, R11): bytes, addresses, and the 17-bit transaction
word of 30_encoding.md R90.
-/

namespace Sys2Proof

/-- `byte`: unsigned 8 bits (R11). -/
abbrev Byte := BitVec 8

/-- `address`: unsigned 16 bits (R11). -/
abbrev Address := BitVec 16

/-- The transaction word `T = {W, addr}`: bit 16 is the direction, bits 15..0 the address (R90). -/
abbrev BusWord := BitVec 17

/-- The highest address of the one 16-bit address space (R60). -/
abbrev lastAddress : Nat := 0xFFFF

end Sys2Proof
end

