-- ==== Sys2Proof/Syntax.lean ====
section
/-!
DEFINITION. The syntax of the block and its environment: the operations of spec/opcode_table.json (`Instr`),
the bus transaction (30_encoding.md R90), the debugger commands (R103) and the requests that arrive from
outside (R91, R92, 43_host_monitor.md R206).
-/

namespace Sys2Proof

/-- A bus transaction (R90): the 17-bit word that selects the operation, and beside it the byte to write
and the CPU's program counter. `wdata` has a meaning only when bit 16 of the word is 1. -/
structure Transaction where
  word : BusWord
  wdata : Byte
  pc : Address
  deriving DecidableEq, Repr, Inhabited

/-- One operation of the block or of its environment: one constructor per mnemonic of
spec/opcode_table.json. -/
inductive Instr where
  /-- `UART_WR` (41_uart.md R140). -/
  | uartWr (value : Byte) (pc : Address)
  /-- `UART_RD` (41_uart.md R141). -/
  | uartRd (pc : Address)
  /-- `CON_WR` (42_console.md R160). -/
  | conWr (addr : Address) (value : Byte) (pc : Address)
  /-- `RAM_WR` (40_bus_dispatch.md R123). -/
  | ramWr (addr : Address) (wdata : Byte) (pc : Address)
  /-- `RAM_RD` (40_bus_dispatch.md R122). -/
  | ramRd (addr : Address) (pc : Address)
  /-- `BUS_RD` (40_bus_dispatch.md R120). -/
  | busRd (addr : Address) (pc : Address)
  /-- `BUS_WR` (40_bus_dispatch.md R121). -/
  | busWr (addr : Address) (wdata : Byte) (pc : Address)
  /-- `INPUT_PUSH` (41_uart.md R142). -/
  | inputPush (c : Byte)
  /-- `SET_HALT` (41_uart.md R143); the address is an unbounded number, checked by R131. -/
  | setHalt (h : Option Nat)
  /-- `PRESENT` (42_console.md R165); `ok` is whether the surface's present succeeded. -/
  | present (ok : Bool)
  /-- `RESET` (70_reset_and_hazards.md R260). -/
  | reset
  /-- `PUTCHAR` (42_console.md R162). -/
  | putchar (value : Byte)
  /-- `SCROLL` (42_console.md R163). -/
  | scroll
  /-- `HaltCheck` (41_uart.md R144). -/
  | haltCheck (pc : Address)
  /-- `RequestHalt` (60_exceptions.md R221). -/
  | requestHalt
  /-- `LOAD` (43_host_monitor.md R190); `none` when the bytes could not be obtained. -/
  | load (bytes : Option (List Byte)) (startAddress : Nat)
  /-- `WATCH` (43_host_monitor.md R191); an unbounded number, checked by R131. -/
  | watch (address : Nat)
  /-- `STEP` (43_host_monitor.md R192). -/
  | step
  /-- `RUN` (43_host_monitor.md R193). -/
  | run
  /-- `RESET_VECTOR_LOAD` (43_host_monitor.md R194). -/
  | resetVectorLoad
  /-- `CANCEL` (43_host_monitor.md R195). -/
  | cancel
  /-- `ENTER_AT` (43_host_monitor.md R196). -/
  | enterAt (a : Address)
  /-- `TERMINATE` (43_host_monitor.md R197). -/
  | terminate
  /-- `TEXT_INPUT` (43_host_monitor.md R201): the code points of the text, first character first. -/
  | textInput (s : List Nat)
  deriving DecidableEq, Repr

/-- The debugger command surface (R103). `load` names the bytes of its file (`none` when they cannot be
obtained) and the optional address; `break` and `watch` name a hexadecimal address. -/
inductive Command where
  | load (bytes : Option (List Byte)) (addr : Option Nat)
  | go
  | run
  | step
  | breakAt (hexaddr : Nat)
  | watchAt (hexaddr : Nat)
  | exit
  | quit
  deriving DecidableEq, Repr

/-- What can arrive from outside at a step boundary (R91, R92, R103, R206). `bus` is one transaction at the
block's bus port, with no CPU behind it (95_test_vectors.md); `pass` says that nothing arrives at this boundary, so that RUN's loop goes on. -/
inductive Request where
  | bus (t : Transaction)
  | command (c : Command)
  | inputPush (c : Byte)
  | setHalt (h : Option Nat)
  | present (ok : Bool)
  | resetVectorLoad
  | enterAt (a : Address)
  | cancel
  | terminate
  | textInput (s : List Nat)
  | pass
  deriving DecidableEq, Repr

end Sys2Proof
end

