-- ==== Sys2Proof/Config.lean ====
section
/-!
DEFINITION. What is fixed for a machine and what the spec leaves open: the parameters of 00_scope.md R8, the
console's cells (R11), the external CPU's contract (43_host_monitor.md R198), and the free values (constants
with no body, so that nothing can be proved of what they are).
-/

namespace Sys2Proof

/-- The colour type (R11): only the two named values occur, and they differ (D6).
DESIGN CHOICE, safe: a two-valued type, as D6 allows (log 17). -/
inductive RGBA where
  | white
  | black
  deriving DecidableEq, Repr, Inhabited

/-- A console cell (R11). -/
structure Cell where
  glyph : Byte
  fg : RGBA
  bg : RGBA
  deriving DecidableEq, Repr, Inhabited

/-- The cell a glyph makes, white on black, on both write paths (R160, R162, D5). -/
def Cell.ofGlyph (g : Byte) : Cell := ⟨g, .white, .black⟩

/-- `BLANK` (R11). -/
def Cell.blank : Cell := Cell.ofGlyph 0

/-- The console's character grid (R28): rows from the top, each a list of cells from the left. -/
abbrev Grid := List (List Cell)

/-- A grid of blank cells. -/
def Grid.blank (width height : Nat) : Grid := List.replicate height (List.replicate width Cell.blank)

/-- The grid of a given size whose cell in column `x` of row `y` is `cells x y`. -/
def Grid.ofCells (width height : Nat) (cells : Nat → Nat → Cell) : Grid :=
  (List.range height).map fun y => (List.range width).map fun x => cells x y

/-- `NL_BYTE`'s two legal values (R147). -/
inductive Newline where
  /-- 0x0D, the reference value. -/
  | cr
  /-- 0x0A. -/
  | lf
  deriving DecidableEq, Repr

/-- `INPUT_NARROW` (R8, R98): what the adapter does with a code point above 0xFF. -/
inductive InputNarrow where
  /-- The reference choice: the event is refused. -/
  | refuse
  /-- Some byte is made of it; the spec does not say which (`Config.narrowed`). -/
  | narrow
  deriving DecidableEq, Repr

/-- The implementation parameters (R8), as plain numbers, so that an ill-formed configuration (R9, R125) can be
written down and refused. CONSOLE_LAST is computed from them (`Machine.consoleLast`). -/
structure Config where
  /-- `ADDR_WIDTH`; the rules are written for 16 (R11, R60, R90), any other value is an invalid width (log 32). -/
  addrWidth : Nat
  /-- `DATA_WIDTH`; the rules are written for 8 (R11, R69), any other value is an invalid width (log 32). -/
  dataWidth : Nat
  /-- `RAM_SIZE`, the bytes of the flat byte store: one for each address (R24, R60). -/
  ramSize : Nat
  /-- `WIDTH`: columns. -/
  width : Nat
  /-- `HEIGHT`: rows. -/
  height : Nat
  /-- `CONSOLE_BASE`. -/
  consoleBase : Nat
  /-- `UART_ADDR`. -/
  uartAddr : Nat
  /-- `RESET_VECTOR`. -/
  resetVector : Nat
  /-- `NL_BYTE`. -/
  newline : Newline
  /-- `HALT_LINKED` (D12). -/
  haltLinked : Bool
  /-- `INPUT_NARROW` (D18). -/
  inputNarrow : InputNarrow
  /-- `RAM_INIT` (D10): the byte of address `a` is the `a`-th of the list (0 past its end, so that every
  function from addresses to bytes is some list's). -/
  ramInit : List Byte
  deriving DecidableEq, Repr

/-- The byte store's contents at reset, OPEN (D10, U1): any value (log 1). -/
opaque Config.anyRam : List Byte

/-- The reference configuration (R8, third column). -/
def Config.reference : Config where
  addrWidth := 16
  dataWidth := 8
  ramSize := 0x10000
  width := 80
  height := 25
  consoleBase := 0xE000
  uartAddr := 0xEFFF
  resetVector := 0xFFFC
  newline := .cr
  haltLinked := true
  inputNarrow := .refuse
  ramInit := Config.anyRam

/-- The external CPU's state (R198): its program counter, and everything else it holds as one number, of
which the spec says nothing (log 5). -/
structure Cpu where
  pc : Address
  core : Nat
  deriving DecidableEq, Repr, Inhabited

/-- What one `cpu.step()` does (R198): finitely many bus transactions, each with the program counter the CPU
presents, every read's answer able to decide what follows, and then the next CPU state. -/
inductive CpuRun where
  | done (next : Cpu)
  | read (addr : Address) (pc : Address) (onData : Byte → CpuRun)
  | write (addr : Address) (wdata : Byte) (pc : Address) (rest : CpuRun)
  deriving Inhabited

/-- The CPU, a parameter (R198, D13): nothing is known of it but its contract (log 5). -/
opaque Config.cpuStep : Cpu → CpuRun

/-- `cpu.pc` after the n-th reset, OPEN (R261, U10): any value (log 2). -/
opaque Config.cpuPcAtReset : Nat → Address

/-- The rest of the CPU after the n-th reset, OPEN (R261, U10): any value (log 2). -/
opaque Config.cpuCoreAtReset : Nat → Nat

/-- The surface's cell in column `x` of row `y` after the n-th reset, OPEN (R35, U7): any value, as a function of
`n`, `x` and `y` (log 3). The surface's size is fixed (R35, R203). -/
opaque Config.surfaceAtReset : Nat → Nat → Nat → Cell

/-- The byte made of a code point above 0xFF where `INPUT_NARROW` is not `refuse` (N11): any value (log 16). -/
opaque Config.narrowed : Nat → Byte

/-- The address of a `load` command that names none (N12, D25): any value (log 19). -/
opaque Config.defaultLoadAddress : Nat

/-- One instruction of a CPU whose instructions are fixed in advance (95_test_vectors.md, the M vectors): the
transactions it issues, in order, and the program counter it leaves (log 6). -/
structure ScriptStep where
  accesses : List Transaction
  pcAfter : Address
  deriving DecidableEq, Repr

end Sys2Proof
end

