-- ==== Sys2Proof/Machine/Regions.lean ====
section
/-!
DEFINITION. The region table that configures the dispatch (40_bus_dispatch.md R124 to R126), its check (R125),
the relations between the parameters (00_scope.md R9), and which handler, if any, takes an access.
-/

namespace Sys2Proof.Machine

/-- The read handlers of the block. -/
inductive ReadHandler where
  | uartRd
  deriving DecidableEq, Repr

/-- The write handlers of the block. -/
inductive WriteHandler where
  | uartWr
  | conWr
  deriving DecidableEq, Repr

/-- `MappedRegion` (R124); both bounds inclusive (D7). -/
structure Region where
  start : Nat
  last : Nat
  onRead : Option ReadHandler
  onWrite : Option WriteHandler
  deriving DecidableEq, Repr

/-- `r.start <= addr <= r.end` (R120). -/
def Region.covers (r : Region) (a : Nat) : Bool := r.start ≤ a && a ≤ r.last

/-- Bounds inside the address space: R125 (a). -/
def Region.inRange (r : Region) : Bool := r.start ≤ r.last && r.last ≤ lastAddress

/-- Both regions give a handler for one direction at a common address: what R125 (b) forbids (D8). -/
def Region.conflicts (r q : Region) : Bool :=
  (r.start ≤ q.last && q.start ≤ r.last) &&
    ((r.onRead.isSome && q.onRead.isSome) || (r.onWrite.isSome && q.onWrite.isSome))

/-- R125 (b) of a table: no two of its registrations conflict. -/
def noOverlap : List Region → Bool
  | [] => true
  | r :: rs => rs.all (fun q => !r.conflicts q) && noOverlap rs

/-- The check of R125 on a whole table. -/
def tableWellFormed (table : List Region) : Bool := table.all Region.inRange && noOverlap table

/-- The read handler that takes a read of `a` (R120); a region without one does not take it. -/
def readHandlerAt (table : List Region) (a : Nat) : Option ReadHandler :=
  (table.find? fun r => r.covers a && r.onRead.isSome).bind Region.onRead

/-- The write handler that takes a write of `a` (R121). -/
def writeHandlerAt (table : List Region) (a : Nat) : Option WriteHandler :=
  (table.find? fun r => r.covers a && r.onWrite.isSome).bind Region.onWrite

/-- `CONSOLE_LAST` (R8). -/
def consoleLast (c : Config) : Nat := c.consoleBase + c.width * c.height - 1

/-- The console's write-only region (R126). -/
def consoleRegion (c : Config) : Region := ⟨c.consoleBase, consoleLast c, none, some .conWr⟩

/-- The UART's one address (R126, R127). -/
def uartRegion (c : Config) : Region := ⟨c.uartAddr, c.uartAddr, some .uartRd, some .uartWr⟩

/-- The region table of a configuration (R126). -/
def regions (c : Config) : List Region := [consoleRegion c, uartRegion c]

/-- `WIDTH >= 1`, `HEIGHT >= 1` (R9). -/
def gridNotEmpty (c : Config) : Bool := 1 ≤ c.width && 1 ≤ c.height

/-- The widths the rules are written for: 16-bit addresses, 8-bit data, a byte of RAM for each address (R8, R60).
Any other is the "invalid address width" of R222 and R235. DEDUCED, safe: the spec gives no list of the invalid ones
(log 32). -/
def widthsValid (c : Config) : Bool := c.addrWidth == 16 && c.dataWidth == 8 && c.ramSize == lastAddress + 1

/-- Every address of the configuration lies in the address space (R9, R125 (a)). -/
def addressesInRange (c : Config) : Bool :=
  (regions c).all Region.inRange && c.resetVector + 1 ≤ lastAddress

/-- A configuration a block exists for: R9 and R125 (D26). -/
def configWellFormed (c : Config) : Bool :=
  gridNotEmpty c && widthsValid c && addressesInRange c && noOverlap (regions c)

/-- The configuration of a block that exists: it carries the proof that it is well formed (D26), so that the
model has no machine for an ill-formed one (R125). -/
structure WellFormedConfig extends Config where
  wellFormed : configWellFormed toConfig = true
  deriving DecidableEq, Repr

/-- The reference configuration (R8), which is well formed (R9, R126). -/
def WellFormedConfig.reference : WellFormedConfig := ⟨Config.reference, by decide⟩

/-- The handler that takes a write of `addr` in configuration `c`. -/
def writeTakenBy (c : Config) (addr : Address) : Option WriteHandler := writeHandlerAt (regions c) addr.toNat

/-- The handler that takes a read of `addr` in configuration `c`. -/
def readTakenBy (c : Config) (addr : Address) : Option ReadHandler := readHandlerAt (regions c) addr.toNat

end Sys2Proof.Machine
end

