-- ==== Sys2Proof/WellFormed.lean ====
section
/-!
DEFINITION. Which operations are well formed in a configuration: a bus operation stands at an address that
selects it (30_encoding.md R93), and a host operation's numbers are in range (40_bus_dispatch.md R131,
43_host_monitor.md R190, R201).
-/

namespace Sys2Proof

/-- The operation's operands are ones the spec admits. -/
def Instr.wellFormed (c : Config) : Instr → Bool
  | .conWr addr _ _ => Machine.writeTakenBy c addr == some .conWr
  | .ramWr addr _ _ => Machine.writeTakenBy c addr == none
  | .ramRd addr _ => Machine.readTakenBy c addr == none
  | .setHalt h => h.all (· ≤ lastAddress)
  | .watch a => a ≤ lastAddress
  | .load bytes start => bytes.all fun bs => start + bs.length ≤ lastAddress + 1
  | .textInput s => c.inputNarrow == .narrow || s.head?.all (· ≤ 0xFF)
  | .uartWr _ _ | .uartRd _ | .busRd _ _ | .busWr _ _ _ | .inputPush _ | .present _ | .reset
  | .putchar _ | .scroll | .haltCheck _ | .requestHalt | .step | .run | .resetVectorLoad | .cancel
  | .enterAt _ | .terminate => true

/-- The five operations a transaction word selects (R93). -/
def Instr.selectedByWord : Instr → Bool
  | .uartWr _ _ | .uartRd _ | .conWr _ _ _ | .ramWr _ _ _ | .ramRd _ _ => true
  | .busRd _ _ | .busWr _ _ _ | .inputPush _ | .setHalt _ | .present _ | .reset | .putchar _ | .scroll
  | .haltCheck _ | .requestHalt | .load _ _ | .watch _ | .step | .run | .resetVectorLoad | .cancel
  | .enterAt _ | .terminate | .textInput _ => false

end Sys2Proof
end

