-- ==== Sys2Proof/Decode.lean ====
section
/-!
DEFINITION. Decoding: the selecting part of a transaction (30_encoding.md R90, R93), the encoder, the mask/match
table of R93 beside the address comparison it must agree with, and the operations that commands and ports
stand for (R92, R103).
-/

namespace Sys2Proof

/-- `W`, bit 16 of the word (R90): 1 is a write. -/
def Transaction.isWrite (t : Transaction) : Bool := t.word.msb

/-- `addr`, bits 15..0 of the word (R90). -/
def Transaction.addr (t : Transaction) : Address := t.word.setWidth 16

/-- `{W, addr}` (R90). -/
def busWord (isWrite : Bool) (addr : Address) : BusWord := BitVec.cons isWrite addr

/-- The transaction of a write; `W addr wdata @pc` in R104. -/
def Transaction.write (addr : Address) (wdata : Byte) (pc : Address) : Transaction :=
  ⟨busWord true addr, wdata, pc⟩

/-- The transaction of a read; `R addr @pc` in R104. Its `wdata` is absent, written 0. -/
def Transaction.read (addr : Address) (pc : Address) : Transaction := ⟨busWord false addr, 0, pc⟩

/-- The operation a write selects (R121). -/
def decodeWrite (c : Config) (addr : Address) (wdata : Byte) (pc : Address) : Instr :=
  match Machine.writeTakenBy c addr with
  | some .uartWr => .uartWr wdata pc
  | some .conWr => .conWr addr wdata pc
  | none => .ramWr addr wdata pc

/-- The operation a read selects (R120). -/
def decodeRead (c : Config) (addr : Address) (pc : Address) : Instr :=
  match Machine.readTakenBy c addr with
  | some .uartRd => .uartRd pc
  | none => .ramRd addr pc

/-- The operation a transaction selects. It is total: no transaction word is illegal or reserved (R99). -/
def decode (c : Config) (t : Transaction) : Instr :=
  if t.isWrite then decodeWrite c t.addr t.wdata t.pc else decodeRead c t.addr t.pc

/-- Why bits given to the decoder are no transaction. -/
inductive DecodeError where
  /-- A number with a bit above bit 16 set is no transaction word (R90). -/
  | wordTooWide
  deriving DecidableEq, Repr

/-- The decoder on a number: its bits 16..0 are the word; any higher bit set is rejected. -/
def decodeBits (c : Config) (w : Nat) (wdata : Byte) (pc : Address) : Except DecodeError Instr :=
  if w < 2 ^ 17 then .ok (decode c ⟨BitVec.ofNat 17 w, wdata, pc⟩) else .error .wordTooWide

/-- The transaction of an operation that arrives on the bus port; the other operations have no bits (R92).
`BUS_RD` and `BUS_WR` are the dispatch of any read or write (R120, R121). -/
def encode (c : Config) : Instr → Option Transaction
  | .uartWr value pc => some (.write (BitVec.ofNat 16 c.uartAddr) value pc)
  | .uartRd pc => some (.read (BitVec.ofNat 16 c.uartAddr) pc)
  | .conWr addr value pc => some (.write addr value pc)
  | .ramWr addr wdata pc => some (.write addr wdata pc)
  | .ramRd addr pc => some (.read addr pc)
  | .busRd addr pc => some (.read addr pc)
  | .busWr addr wdata pc => some (.write addr wdata pc)
  | .inputPush _ | .setHalt _ | .present _ | .reset | .putchar _ | .scroll | .haltCheck _ | .requestHalt
  | .load _ _ | .watch _ | .step | .run | .resetVectorLoad | .cancel | .enterAt _ | .terminate
  | .textInput _ => none

/-- The operations the decode table selects (R93). -/
inductive BusOp where
  | uartWr
  | uartRd
  | conWr
  | ramWr
  | ramRd
  deriving DecidableEq, Repr

/-- A row of the decode table (R93): it matches when `(T AND mask) == pattern`. -/
structure MaskRow where
  op : BusOp
  mask : BusWord
  pattern : BusWord
  deriving DecidableEq, Repr

/-- The decode table of the reference configuration, in the order its rows are tried (R93). -/
def maskTable : List MaskRow :=
  [⟨.uartWr, 0x1FFFF, 0x1EFFF⟩,
   ⟨.uartRd, 0x1FFFF, 0x0EFFF⟩,
   ⟨.conWr, 0x1FC00, 0x1E000⟩,
   ⟨.conWr, 0x1FE00, 0x1E400⟩,
   ⟨.conWr, 0x1FF00, 0x1E600⟩,
   ⟨.conWr, 0x1FF80, 0x1E700⟩,
   ⟨.conWr, 0x1FFC0, 0x1E780⟩,
   ⟨.conWr, 0x1FFF0, 0x1E7C0⟩,
   ⟨.ramWr, 0x10000, 0x10000⟩,
   ⟨.ramRd, 0x10000, 0x00000⟩]

/-- The operation of the first row that matches (R93). -/
def selectByMask (w : BusWord) : Option BusOp :=
  (maskTable.find? fun r => w &&& r.mask == r.pattern).map MaskRow.op

/-- A selected operation with the transaction's operands (R97). -/
def BusOp.withOperands (t : Transaction) : BusOp → Instr
  | .uartWr => .uartWr t.wdata t.pc
  | .uartRd => .uartRd t.pc
  | .conWr => .conWr t.addr t.wdata t.pc
  | .ramWr => .ramWr t.addr t.wdata t.pc
  | .ramRd => .ramRd t.addr t.pc

/-- The operation a debugger command stands for (R103). A `load` without an address uses the
implementation's default, which the spec does not give (N12). -/
def Command.operation : Command → Instr
  | .load bytes addr => .load bytes (addr.getD Config.defaultLoadAddress)
  | .go => .run
  | .run => .run
  | .step => .step
  | .breakAt a => .watch a
  | .watchAt a => .watch a
  | .exit => .terminate
  | .quit => .terminate

/-- The operation a request asks for; `pass` asks for none. -/
def decodeRequest (c : Config) : Request → Option Instr
  | .bus t => some (decode c t)
  | .command k => some k.operation
  | .inputPush b => some (.inputPush b)
  | .setHalt h => some (.setHalt h)
  | .present ok => some (.present ok)
  | .resetVectorLoad => some .resetVectorLoad
  | .enterAt a => some (.enterAt a)
  | .cancel => some .cancel
  | .terminate => some .terminate
  | .textInput s => some (.textInput s)
  | .pass => none

/-- The instruction the decoder reads from the bits `w` of an opcode-table row (`nbits` of them given by the
table): a transaction word, with operand fields of zeros. -/
def decodeTableWord (_nbits w : Nat) : Option Instr :=
  match decodeBits Config.reference w 0 0 with
  | .ok i => some i
  | .error _ => none

end Sys2Proof
end

