-- ==== Sys2Proof/Machine/State.lean ====
section
/-!
DEFINITION. The state of the block and of its environment (10_state.md R20), the reasons a step can stop, and the
state after reset (70_reset_and_hazards.md R260).
-/

namespace Sys2Proof.Machine

/-- Why the machine stops with a fault: never. "No behaviour of the block is treated as `fault` or `stuck`"
(93_implementation_defined.md), and no bus transaction raises an error (R222), so there is no constructor.
Safe: nothing can be proved from a fault that cannot occur (log 25). -/
inductive Fault where
  deriving DecidableEq, Repr

/-- Why an operation has no successor state (`refuse`, R12). -/
inductive Refusal where
  /-- The operation has no meaning in this model. Raised by nothing: every operation has one. Safe. -/
  | notModelled (mnemonic : String)
  /-- `ERR_ADDR_RANGE` (R131, R222): an address above 0xFFFF, given to LOAD, WATCH or SET_HALT; raised by
  `construct` for one standing in the configuration, and for an invalid width. Safe: the spec refuses it. -/
  | addressRange
  /-- `ERR_OVERLAP` (R125, R222): raised by `construct` for a region table with two handlers for one direction at
  one address. Safe: the spec builds no machine for it. -/
  | regionOverlap
  /-- R9: raised by `construct` for a configuration with no columns or no rows. Safe: no machine exists for it. -/
  | emptyGrid
  /-- `ERR_INPUT_RANGE` (R201, R222): raised by TEXT_INPUT for a first code point above 0xFF when
  `INPUT_NARROW` is `refuse`. Safe: the spec refuses the event. -/
  | inputRange
  /-- Raised by LOAD, WATCH, SET_HALT, RUN, RESET_VECTOR_LOAD and ENTER_AT while RUNNING: they are accepted
  only in HALTED (R200, R206). Safe: `step` lets such a request wait instead (log 8). -/
  | onlyWhileHalted
  /-- Raised by CON_WR, RAM_WR and RAM_RD at an address at which no transaction word selects that operation
  (R93). Safe: no transaction is such an operation (log 13). -/
  | notSelected
  deriving DecidableEq, Repr

/-- The result fields of R90: `rdata` is present for a read only. -/
structure BusResult where
  rdata : Option Byte
  haltReq : Bool
  deriving DecidableEq, Repr

/-- The state (R20): the block, its environment, the configuration (R8), and the model's own fields. -/
structure State where
  /-- The parameters (R8), with the proof that they are well formed (R125, D26). No operation writes them
  (R20). -/
  setup : WellFormedConfig
  /-- The byte store's listed cells (R24): addresses strictly rising, none equal to what an unlisted
  address reads as. -/
  ram : List Host.Cell
  /-- R26. -/
  pendingInput : Byte
  /-- R27. -/
  haltAddress : Option Address
  /-- R28. -/
  grid : Grid
  /-- R30. -/
  cursorX : Nat
  /-- R30. -/
  cursorY : Nat
  /-- The dirty flag, R31. -/
  updated : Bool
  /-- The external CPU, R22, R198. -/
  cpu : Cpu
  /-- `RUNNING` or `HALTED`, R32. -/
  running : Bool
  /-- R34. -/
  watchAddress : Option Address
  /-- The rendering surface's cells: a grid of fixed size (R35, R203), that of `grid` (log 33). -/
  surface : Grid
  /-- Observation, R36. -/
  txLog : List Byte
  /-- Observation, R36. -/
  haltReports : Nat
  /-- The model's own observation: how many LOADs have reported that their bytes could not be obtained (R190,
  R235; log 31). -/
  loadFailures : Nat
  /-- R197. -/
  terminated : Bool
  /-- The model's own: how many RESETs there have been, the index of the free values one draws (log 23). -/
  resets : Nat
  /-- The model's own: the result fields of the latest operation that returned any (log 12). -/
  returned : Option BusResult
  /-- The model's own: the requests that have arrived and wait to be performed (log 7). -/
  inbox : List Request
  /-- The model's own: the CPU's next instructions where they are fixed in advance (log 6). -/
  cpuScript : List ScriptStep
  deriving DecidableEq, Repr

/-- The parameters of this machine (R8). -/
def State.config (s : State) : Config := s.setup.toConfig

/-- The machine `RESET` leaves (R260), as the `n`-th reset, with the outside world's requests and the CPU
script as given. `cpu` and the cells of `surface` are not specified (R261): free values. -/
def State.constructed (c : WellFormedConfig) (n : Nat) (inbox : List Request) (script : List ScriptStep) : State where
  setup := c
  ram := []
  pendingInput := 0
  haltAddress := none
  grid := Grid.blank c.width c.height
  cursorX := 0
  cursorY := 0
  updated := false
  cpu := ⟨Config.cpuPcAtReset n, Config.cpuCoreAtReset n⟩
  running := false
  watchAddress := none
  surface := Grid.ofCells c.width c.height (Config.surfaceAtReset n)
  txLog := []
  haltReports := 0
  loadFailures := 0
  terminated := false
  resets := n
  returned := none
  inbox := inbox
  cpuScript := script

/-- The machine right after reset, in the reference configuration, with nothing requested of it. -/
def State.reset : State := State.constructed WellFormedConfig.reference 0 [] []

/-- What one operation answers. -/
abbrev Result := Host.Outcome State Fault Refusal

end Sys2Proof.Machine
end

