-- ==== Sys2Proof/Machine/Flags.lean ====
section
/-!
DEFINITION. The block's flags: the dirty flag `updated` (10_state.md R31), the halt check (41_uart.md R144), the
result fields (30_encoding.md R90).
-/

namespace Sys2Proof.Machine

/-- `updated <- true` (R31). -/
def State.markUpdated (s : State) : State := { s with updated := true }

/-- `HaltCheck(pc)` (R144): does the presented program counter equal the configured halt address? -/
def State.haltCheck (s : State) (pc : Address) : Bool := decide (s.haltAddress = some pc)

/-- The result fields an operation returns (R90). -/
def State.returns (s : State) (rdata : Option Byte) (haltReq : Bool) : State :=
  { s with returned := some ⟨rdata, haltReq⟩ }

end Sys2Proof.Machine
end

