-- ==== Sys2Proof/Machine/Operands.lean ====
section
/-!
DEFINITION. Operand assembly: the cell a console address selects (30_encoding.md R96), host-side addresses
(40_bus_dispatch.md R131), the reset vector (20_memory.md R65), the newline byte (41_uart.md R147) and the
character of a text input (R98, 43_host_monitor.md R201).
-/

namespace Sys2Proof.Machine

/-- `off = addr - CONSOLE_BASE` (R96). -/
def cellOffset (c : Config) (addr : Address) : Nat := addr.toNat - c.consoleBase

/-- `x = off mod WIDTH` (R96). -/
def cellColumn (c : Config) (addr : Address) : Nat := cellOffset c addr % c.width

/-- `y = off div WIDTH` (R96). -/
def cellRow (c : Config) (addr : Address) : Nat := cellOffset c addr / c.width

/-- The address of the cell in column `x` of row `y` (R96, the inverse). -/
def cellAddress (c : Config) (x y : Nat) : Address := BitVec.ofNat 16 (c.consoleBase + y * c.width + x)

/-- The byte the streaming path treats as newline (R147). -/
def newlineByte (c : Config) : Byte :=
  match c.newline with
  | .cr => 0x0D
  | .lf => 0x0A

/-- An address given as an unbounded number: validated, never masked (R131). -/
def hostAddress (a : Nat) : Option Address := if a ≤ lastAddress then some (BitVec.ofNat 16 a) else none

/-- LOAD's range test, `startAddress + n - 1 > 0xFFFF` (R190). -/
def loadPastEnd (start n : Nat) : Bool := lastAddress < start + n - 1

/-- The two bytes of the reset vector, low byte at the lower address (R65, R194). -/
def littleEndian (lo hi : Byte) : Address := hi ++ lo

/-- The byte a text input delivers (R201): none for an empty text, and for a code point above 0xFF what
`INPUT_NARROW` says (R98). -/
def textByte (c : Config) : List Nat → Except Refusal (Option Byte)
  | [] => .ok none
  | cp :: _ =>
    if cp ≤ 0xFF then .ok (some (BitVec.ofNat 8 cp))
    else match c.inputNarrow with
      | .refuse => .error .inputRange
      | .narrow => .ok (some (Config.narrowed cp))

end Sys2Proof.Machine
end

