-- ==== Sys2Proof/Machine/Ops.lean ====
section
/-!
DEFINITION. The named operations over memory and registers that the meanings share: the byte store, the grid, the
halt request (the block's one exception-like event, 60_exceptions.md R221) and the way on from it (R224), the
two UART handlers, the console's two write paths, and the dispatch.
-/

namespace Sys2Proof.Machine

/-! ### The byte store (10_state.md R24) -/

/-- What an address nothing has written reads as: `RAM_INIT(a)` (R24, log 1). -/
def Memory.initByte (init : List Byte) (a : Nat) : Byte := init.getD a 0

/-- The byte listed at an address, if one is. -/
def Memory.listed : List Host.Cell → Nat → Option Byte
  | [], _ => none
  | (k, b) :: m, a => if k = a then some b else Memory.listed m a

/-- The byte at an address. -/
def Memory.read (init : List Byte) (m : List Host.Cell) (a : Nat) : Byte :=
  (Memory.listed m a).getD (Memory.initByte init a)

/-- List a byte at an address, keeping the addresses rising. -/
def Memory.list : List Host.Cell → Nat → Byte → List Host.Cell
  | [], a, b => [(a, b)]
  | (k, v) :: m, a, b =>
    if a < k then (a, b) :: (k, v) :: m
    else if a = k then (a, b) :: m
    else (k, v) :: Memory.list m a b

/-- List no byte at an address. -/
def Memory.unlist (m : List Host.Cell) (a : Nat) : List Host.Cell := m.filter fun c => c.1 != a

/-- Store a byte. Writing what an unlisted address reads as removes the entry, so that equal memories are
equal lists. -/
def Memory.write (init : List Byte) (m : List Host.Cell) (a : Nat) (b : Byte) : List Host.Cell :=
  if b = Memory.initByte init a then Memory.unlist m a else Memory.list m a b

/-- The canonical form: addresses strictly rising and inside the address space, no entry equal to what an
unlisted address reads as. -/
abbrev Memory.wf (init : List Byte) (m : List Host.Cell) : Prop :=
  m.Pairwise (fun p q => p.1 < q.1) ∧ ∀ c ∈ m, c.1 ≤ lastAddress ∧ c.2 ≠ Memory.initByte init c.1

/-- `RAM[a]` (R24). -/
def State.ramByte (s : State) (a : Nat) : Byte := Memory.read s.config.ramInit s.ram a

/-- `RAM[a] <- b` (R123). -/
def State.storeByte (s : State) (a : Nat) (b : Byte) : State :=
  { s with ram := Memory.write s.config.ramInit s.ram a b }

/-! ### The grid (10_state.md R28) -/

/-- `grid[y][x]`, where there is such a cell (R28). -/
def Grid.cell? (g : Grid) (x y : Nat) : Option Cell := (g[y]?).bind (·[x]?)

/-- `grid[y][x] <- cell` (R160, R162). -/
def Grid.put (g : Grid) (x y : Nat) (cell : Cell) : Grid := g.modify y (·.set x cell)

/-- `SCROLL` on a grid of the given width (R163): every row moves up, the first is lost, a blank one follows. -/
def Grid.scrolled (width : Nat) : Grid → Grid
  | [] => []
  | _ :: rows => rows ++ [List.replicate width Cell.blank]

/-- A glyph, white on black, into one cell (R160, R162). -/
def State.putGlyph (s : State) (x y : Nat) (glyph : Byte) : State :=
  { s with grid := Grid.put s.grid x y (Cell.ofGlyph glyph) }

/-- The cursor's two registers (R30). -/
def State.moveCursor (s : State) (x y : Nat) : State := { s with cursorX := x, cursorY := y }

/-- `SCROLL()` (R163). The cursor and `updated` are not touched. -/
def State.scroll (s : State) : State := { s with grid := Grid.scrolled s.config.width s.grid }

/-! ### The halt request, and the way on from it -/

/-- `RequestHalt()` (R221): TAKING THE ONE EXCEPTION. It clears `running` and counts one report, only when
`running` was true; it saves nothing and transfers control nowhere (R223). -/
def State.requestHalt (s : State) : State :=
  if s.running then { s with running := false, haltReports := s.haltReports + 1 } else s

/-- The environment's answer to a transaction's `halt_req` (R144, R192). -/
def State.respond (s : State) (haltReq : Bool) : State := if haltReq then s.requestHalt else s

/-- The end of a transaction: its result fields are returned (R90) and the environment answers `halt_req`. -/
def State.settle (s : State) (rdata : Option Byte) (haltReq : Bool) : State :=
  (s.returns rdata haltReq).respond haltReq

/-- Leaving `HALTED` by RUN (R193, R224): nothing is restored because nothing was saved. -/
def State.resume (s : State) : State := { s with running := true }

/-- `running <- false` without a report (R195). -/
def State.stopSilently (s : State) : State := { s with running := false }

/-! ### The console (42_console.md) -/

/-- The first half of PUTCHAR (R162): the glyph or the newline, and the wrap at the right edge. -/
def State.advance (s : State) (value : Byte) : State :=
  if value = newlineByte s.config then s.moveCursor 0 (s.cursorY + 1)
  else if s.cursorX + 1 > s.config.width - 1 then
    (s.putGlyph s.cursorX s.cursorY value).moveCursor 0 (s.cursorY + 1)
  else (s.putGlyph s.cursorX s.cursorY value).moveCursor (s.cursorX + 1) s.cursorY

/-- The second half of PUTCHAR (R162): the scroll and the clamp below the last row. -/
def State.scrollIfBelow (s : State) : State :=
  if s.cursorY > s.config.height - 1 then s.scroll.moveCursor s.cursorX (s.config.height - 1) else s

/-- `PUTCHAR(value)` (R162). -/
def State.putChar (s : State) (value : Byte) : State := (s.advance value).scrollIfBelow.markUpdated

/-- `CON_WR(addr, value)` (R160) without its result: one cell and the dirty flag. -/
def State.writeCell (s : State) (addr : Address) (value : Byte) : State :=
  (s.putGlyph (cellColumn s.config addr) (cellRow s.config addr) value).markUpdated

/-- `CON_WR` as a transaction (R160): `halt_req` is 0. -/
def State.conWrite (s : State) (addr : Address) (value : Byte) : State :=
  (s.writeCell addr value).settle none false

/-- `PRESENT(ok)` (R165): only a dirty grid is presented, and only a successful present clears the flag. -/
def State.present (s : State) (ok : Bool) : State :=
  if s.updated && ok then { s with surface := s.grid, updated := false } else s

/-! ### The UART (41_uart.md) -/

/-- `txLog <- txLog ++ [value]` (R140). -/
def State.emit (s : State) (value : Byte) : State := { s with txLog := s.txLog ++ [value] }

/-- `pendingInput <- c` (R141, R142). -/
def State.setPending (s : State) (c : Byte) : State := { s with pendingInput := c }

/-- `haltAddress <- h` (R143). -/
def State.setHaltAddress (s : State) (h : Option Address) : State := { s with haltAddress := h }

/-- `UART_WR(value, pc)` (R140). -/
def State.uartWrite (s : State) (value : Byte) (pc : Address) : State :=
  ((s.emit value).putChar value).settle none (s.haltCheck pc)

/-- `UART_RD(pc)` (R141). -/
def State.uartRead (s : State) (pc : Address) : State :=
  (s.setPending 0).settle (some s.pendingInput) (s.haltCheck pc)

/-! ### The RAM fallback and the dispatch (40_bus_dispatch.md) -/

/-- `RAM_RD(addr)` (R122). -/
def State.ramRead (s : State) (addr : Address) : State := s.settle (some (s.ramByte addr.toNat)) false

/-- `RAM_WR(addr, wdata)` (R123). -/
def State.ramWrite (s : State) (addr : Address) (wdata : Byte) : State :=
  (s.storeByte addr.toNat wdata).settle none false

/-- `BusRead(addr, pc)` (R120), the state it leaves. -/
def State.busRead (s : State) (addr : Address) (pc : Address) : State :=
  match readTakenBy s.config addr with
  | some .uartRd => s.uartRead pc
  | none => s.ramRead addr

/-- `BusRead(addr, pc)` (R120), the byte it returns. -/
def State.busData (s : State) (addr : Address) : Byte :=
  match readTakenBy s.config addr with
  | some .uartRd => s.pendingInput
  | none => s.ramByte addr.toNat

/-- `BusWrite(addr, wdata, pc)` (R121). -/
def State.busWrite (s : State) (addr : Address) (wdata : Byte) (pc : Address) : State :=
  match writeTakenBy s.config addr with
  | some .uartWr => s.uartWrite wdata pc
  | some .conWr => s.conWrite addr wdata
  | none => s.ramWrite addr wdata

/-- One transaction on the block (R90). -/
def State.transact (s : State) (t : Transaction) : State :=
  if t.isWrite then s.busWrite t.addr t.wdata t.pc else s.busRead t.addr t.pc

/-- Transactions one after the other (R70, R75). -/
def State.transactAll (s : State) (ts : List Transaction) : State := ts.foldl State.transact s

/-! ### The Monitor and the CPU (43_host_monitor.md) -/

/-- LOAD's writes (R190, R105): byte `i` at `startAddress + i`, ascending. -/
def loadWrites (pc : Address) : Nat → List Byte → List Transaction
  | _, [] => []
  | a, b :: bs => .write (BitVec.ofNat 16 a) b pc :: loadWrites pc (a + 1) bs

/-- LOAD's report that its bytes could not be obtained (R190, R235); nothing else changes. -/
def State.reportLoadFailure (s : State) : State := { s with loadFailures := s.loadFailures + 1 }

/-- `watchAddress <- some(a)`, and `haltAddress` with it when `HALT_LINKED` (R191). -/
def State.setWatch (s : State) (a : Address) : State :=
  if s.config.haltLinked then { s with watchAddress := some a, haltAddress := some a }
  else { s with watchAddress := some a }

/-- `cpu.pc <- a` (R194, R196). -/
def State.setPc (s : State) (a : Address) : State := { s with cpu := { s.cpu with pc := a } }

/-- An operation accepted only in HALTED (R200, R206). -/
def State.whileHalted (s : State) (k : Result) : Result := if s.running then .refused .onlyWhileHalted else k

/-- The transactions of a scripted instruction, as the CPU would issue them. -/
def scriptRun (next : Cpu) : List Transaction → CpuRun
  | [] => .done next
  | t :: ts =>
    if t.isWrite then .write t.addr t.wdata t.pc (scriptRun next ts)
    else .read t.addr t.pc fun _ => scriptRun next ts

/-- What the CPU's next instruction does (R198): the script's first step where there is one (log 6),
otherwise whatever the CPU does. -/
def State.nextRun (s : State) : CpuRun :=
  match s.cpuScript with
  | [] => Config.cpuStep s.cpu
  | i :: _ => scriptRun { s.cpu with pc := i.pcAfter } i.accesses

/-- The transactions of one CPU instruction, in order, each performed on the block and its `halt_req`
answered; the instruction always runs to its end (R192). -/
def State.perform : CpuRun → State → State
  | .done next, s => { s with cpu := next }
  | .read addr pc onData, s => State.perform (onData (s.busData addr)) (s.busRead addr pc)
  | .write addr wdata pc rest, s => State.perform rest (s.busWrite addr wdata pc)

/-- The post-step check (R192). -/
def State.watchCheck (s : State) : State := if s.watchAddress = some s.cpu.pc then s.requestHalt else s

/-- The script moves on by one instruction. -/
def State.dropScript (s : State) : State := { s with cpuScript := s.cpuScript.tail }

/-- `STEP()` (R192). -/
def State.stepCpu (s : State) : State := (State.perform s.nextRun s.dropScript).watchCheck

/-! ### Reset (70_reset_and_hazards.md) -/

/-- The reason recorded for a configuration no block exists for (R9, R125, R222); an invalid width has the reason
of ERR_ADDR_RANGE (R222). DESIGN CHOICE, safe: where several relations fail at once the spec gives no order, and
the model reports an empty grid first, then a width or an address, then an overlap (log 29). -/
def configRefusal (c : Config) : Refusal :=
  if !gridNotEmpty c then .emptyGrid
  else if !(widthsValid c && addressesInRange c) then .addressRange
  else .regionOverlap

/-- Construction of a machine from a configuration handed over (R206, R260, R263): the configuration is checked
first, and an ill-formed one aborts the construction (R125, R235), so that no machine has it. -/
def construct (c : Config) (n : Nat) (inbox : List Request) (script : List ScriptStep) : Result :=
  if h : configWellFormed c = true then .next (State.constructed ⟨c, h⟩ n inbox script)
  else .refused (configRefusal c)

end Sys2Proof.Machine
end

