-- ==== Sys2Proof/Machine/Console.lean ====
section
/-!
DEFINITION. The console (42_console.md R160 to R165).
-/

namespace Sys2Proof.Machine

/-- `CON_WR` (R160), at an address of the console region. The program counter is ignored. -/
def execConWr (addr : Address) (value : Byte) (_pc : Address) (s : State) : Result :=
  if writeTakenBy s.config addr = some .conWr then .next (s.conWrite addr value) else .refused .notSelected

/-- `PUTCHAR` (R162). -/
def execPutchar (value : Byte) (s : State) : Result := .next (s.putChar value)

/-- `SCROLL` (R163). -/
def execScroll (s : State) : Result := .next s.scroll

/-- `PRESENT` (R165). -/
def execPresent (ok : Bool) (s : State) : Result := .next (s.present ok)

end Sys2Proof.Machine
end

