-- ==== Sys2Proof/Machine/Monitor.lean ====
section
/-!
DEFINITION. The Monitor and the Input Event Adapter (43_host_monitor.md R190 to R201), and RESET
(70_reset_and_hazards.md R260).
-/

namespace Sys2Proof.Machine

/-- `LOAD` (R190): bytes that could not be obtained are reported and nothing else changes; the range is tested before the first
write; each byte goes through the dispatch with the current `cpu.pc`. -/
def execLoad (bytes : Option (List Byte)) (startAddress : Nat) (s : State) : Result :=
  s.whileHalted <| match bytes with
    | none => .next s.reportLoadFailure
    | some bs =>
      if loadPastEnd startAddress bs.length then .refused .addressRange
      else .next (s.transactAll (loadWrites s.cpu.pc startAddress bs))

/-- `WATCH` (R191). -/
def execWatch (address : Nat) (s : State) : Result :=
  s.whileHalted <| match hostAddress address with
    | some a => .next (s.setWatch a)
    | none => .refused .addressRange

/-- `STEP` (R192): the command in HALTED, and the body of RUN in RUNNING. -/
def execStep (s : State) : Result := .next s.stepCpu

/-- `RUN` (R193): the transition to RUNNING. The loop that follows is the machine's own step while RUNNING
(Machine/Schedule.lean, log 9). -/
def execRun (s : State) : Result := s.whileHalted (.next s.resume)

/-- `RESET_VECTOR_LOAD` (R194): two reads through the dispatch, the low byte first. -/
def execResetVectorLoad (s : State) : Result :=
  s.whileHalted <|
    let loAddr : Address := BitVec.ofNat 16 s.config.resetVector
    let hiAddr : Address := BitVec.ofNat 16 (s.config.resetVector + 1)
    let s₁ := s.busRead loAddr s.cpu.pc
    let s₂ := s₁.busRead hiAddr s.cpu.pc
    .next (s₂.setPc (littleEndian (s.busData loAddr) (s₁.busData hiAddr)))

/-- `CANCEL` (R195): no report. -/
def execCancel (s : State) : Result := .next s.stopSilently

/-- `ENTER_AT` (R196). -/
def execEnterAt (a : Address) (s : State) : Result := s.whileHalted (.next (s.setPc a))

/-- `TERMINATE` (R197): `terminated <- true; CANCEL()`. -/
def execTerminate (s : State) : Result := .next { s.stopSilently with terminated := true }

/-- `TEXT_INPUT` (R201): the first character's code point is pushed; an empty text does nothing. -/
def execTextInput (text : List Nat) (s : State) : Result :=
  match textByte s.config text with
  | .ok none => .next s
  | .ok (some c) => .next (s.setPending c)
  | .error r => .refused r

/-- `RESET` (R260): the machine is constructed again, from its own configuration, which passes the check of
`construct`. What waits outside it stays (log 23). No step performs it: it is construction only (R206). -/
def execReset (s : State) : Result := construct s.config (s.resets + 1) s.inbox s.cpuScript

end Sys2Proof.Machine
end

