-- ==== Sys2Proof/Machine/Ram.lean ====
section
/-!
DEFINITION. The bus: RAM_RD, RAM_WR and the two dispatch operations (40_bus_dispatch.md R120 to R123).
-/

namespace Sys2Proof.Machine

/-- `RAM_RD` (R122), at an address no read handler takes. The program counter is ignored. -/
def execRamRd (addr : Address) (_pc : Address) (s : State) : Result :=
  if readTakenBy s.config addr = none then .next (s.ramRead addr) else .refused .notSelected

/-- `RAM_WR` (R123), at an address no write handler takes. The program counter is ignored. -/
def execRamWr (addr : Address) (wdata : Byte) (_pc : Address) (s : State) : Result :=
  if writeTakenBy s.config addr = none then .next (s.ramWrite addr wdata) else .refused .notSelected

/-- `BUS_RD` (R120). -/
def execBusRd (addr : Address) (pc : Address) (s : State) : Result := .next (s.busRead addr pc)

/-- `BUS_WR` (R121). -/
def execBusWr (addr : Address) (wdata : Byte) (pc : Address) (s : State) : Result :=
  .next (s.busWrite addr wdata pc)

end Sys2Proof.Machine
end

