-- ==== Sys2Proof/Machine/Uart.lean ====
section
/-!
DEFINITION. The UART (41_uart.md R140 to R144) and the halt request (60_exceptions.md R221).
-/

namespace Sys2Proof.Machine

/-- `UART_WR` (R140). -/
def execUartWr (value : Byte) (pc : Address) (s : State) : Result := .next (s.uartWrite value pc)

/-- `UART_RD` (R141). -/
def execUartRd (pc : Address) (s : State) : Result := .next (s.uartRead pc)

/-- `INPUT_PUSH` (R142): the last write wins. -/
def execInputPush (c : Byte) (s : State) : Result := .next (s.setPending c)

/-- `SET_HALT` (R143); an address above 0xFFFF is refused (R131). DESIGN CHOICE, unsafe: `none` is accepted in
HALTED whatever HALT_LINKED is, and clears the halt address alone; R143 calls that operand reachable only at reset
or without HALT_LINKED, and does not say what follows otherwise (log 30). -/
def execSetHalt (h : Option Nat) (s : State) : Result :=
  s.whileHalted <| match h with
    | none => .next (s.setHaltAddress none)
    | some a => match hostAddress a with
      | some addr => .next (s.setHaltAddress (some addr))
      | none => .refused .addressRange

/-- `HaltCheck` (R144): it returns `halt_req`, which the environment answers. -/
def execHaltCheck (pc : Address) (s : State) : Result := .next (s.settle none (s.haltCheck pc))

/-- `RequestHalt` (R221). -/
def execRequestHalt (s : State) : Result := .next s.requestHalt

end Sys2Proof.Machine
end

