-- ==== Sys2Proof/Machine/Dispatch.lean ====
section
/-!
DEFINITION. One arm per operation of spec/opcode_table.json.
-/

namespace Sys2Proof.Machine

def exec (i : Instr) (s : State) : Host.Outcome State Fault Refusal :=
  match i with
  | .uartWr value pc => Sys2Proof.Machine.execUartWr value pc s
  | .uartRd pc => Sys2Proof.Machine.execUartRd pc s
  | .conWr addr value pc => Sys2Proof.Machine.execConWr addr value pc s
  | .ramWr addr wdata pc => Sys2Proof.Machine.execRamWr addr wdata pc s
  | .ramRd addr pc => Sys2Proof.Machine.execRamRd addr pc s
  | .busRd addr pc => Sys2Proof.Machine.execBusRd addr pc s
  | .busWr addr wdata pc => Sys2Proof.Machine.execBusWr addr wdata pc s
  | .inputPush c => Sys2Proof.Machine.execInputPush c s
  | .setHalt h => Sys2Proof.Machine.execSetHalt h s
  | .present ok => Sys2Proof.Machine.execPresent ok s
  | .reset => Sys2Proof.Machine.execReset s
  | .putchar value => Sys2Proof.Machine.execPutchar value s
  | .scroll => Sys2Proof.Machine.execScroll s
  | .haltCheck pc => Sys2Proof.Machine.execHaltCheck pc s
  | .requestHalt => Sys2Proof.Machine.execRequestHalt s
  | .load bytes startAddress => Sys2Proof.Machine.execLoad bytes startAddress s
  | .watch address => Sys2Proof.Machine.execWatch address s
  | .step => Sys2Proof.Machine.execStep s
  | .run => Sys2Proof.Machine.execRun s
  | .resetVectorLoad => Sys2Proof.Machine.execResetVectorLoad s
  | .cancel => Sys2Proof.Machine.execCancel s
  | .enterAt a => Sys2Proof.Machine.execEnterAt a s
  | .terminate => Sys2Proof.Machine.execTerminate s
  | .textInput text => Sys2Proof.Machine.execTextInput text s

end Sys2Proof.Machine
end

