-- ==== Sys2Proof/Machine/Schedule.lean ====
section
/-!
DEFINITION. Whose turn it is at a step boundary: which request is taken (20_memory.md R76, 43_host_monitor.md R200,
R206), the loop of RUN (R193), and the front ends' rounds (R199) as lists of requests.
-/

namespace Sys2Proof.Machine

/-- Requests that are taken only in HALTED (R200, R206): the debugger's commands, the three operations that are the
Monitor's without a command, and a transaction presented at the bus port, since while RUNNING the CPU's STEP alone
issues transactions (R205; log 7). -/
def waitsForHalt : Request → Bool
  | .bus _ | .command _ | .setHalt _ | .resetVectorLoad | .enterAt _ => true
  | .inputPush _ | .present _ | .cancel | .terminate | .textInput _ | .pass => false

/-- While RUNNING: the first request that need not wait, and what stays behind. -/
def takeWhileRunning : List Request → Option Request × List Request
  | [] => (none, [])
  | r :: rs =>
    if waitsForHalt r then ((takeWhileRunning rs).1, r :: (takeWhileRunning rs).2) else (some r, rs)

/-- In HALTED: the request that arrived first. -/
def takeWhileHalted : List Request → Option Request × List Request
  | [] => (none, [])
  | r :: rs => (some r, rs)

/-- The request taken at this boundary, and what stays in the inbox. -/
def takeRequest (running : Bool) (inbox : List Request) : Option Request × List Request :=
  if running then takeWhileRunning inbox else takeWhileHalted inbox

/-- The operation of this turn, and the state it is performed on. With no request, or with `pass`, RUN's loop
performs STEP while RUNNING (R193); in HALTED the front end waits (R234). -/
def State.turn (s : State) : Option Instr × State :=
  let taken := takeRequest s.running s.inbox
  let s' := { s with inbox := taken.2 }
  match taken.1.bind (decodeRequest s.config) with
  | some i => (some i, s')
  | none => (if s.running then some .step else none, s')

/-- One round of the graphical front end (R199): a step if RUNNING, the pending UI events in arrival order,
then the present decision. -/
def graphicalRound (events : List Request) (ok : Bool) : List Request := .pass :: events ++ [.present ok]

/-- One round of the headless front end (R199): a step of RUN, then the cancellation poll (R281). -/
def headlessRound (cancelled : Bool) : List Request := .pass :: if cancelled then [.cancel] else []

/-- A request at the head of the inbox of a machine that takes it next: what `State.withFetchWord` does. A
terminated machine takes nothing (R197) and a RUNNING one not every request (R206), so both flags are cleared. -/
def State.request (s : State) (r : Request) : State :=
  { s with inbox := r :: s.inbox, terminated := false, running := false }

end Sys2Proof.Machine
end

