-- ==== Sys2Proof/Machine/Step.lean ====
section
/-!
DEFINITION. One step of the machine: one operation of the one total order (20_memory.md R75).
-/

namespace Sys2Proof.Machine

/-- One step: the turn's operation is performed. After termination no operation occurs (43_host_monitor.md
R197), and in HALTED with nothing requested the front end waits (60_exceptions.md R234): the state stays. -/
def step (s : State) : Host.Outcome State Fault Refusal :=
  if s.terminated then .next s
  else match s.turn with
    | (some i, s') => exec i s'
    | (none, s') => .next s'

/-- `s` with the transaction word `w` presented at the bus port next (`wdata` and `pc` zero). -/
def State.withFetchWord (s : State) (_nbits w : Nat) : State := s.request (.bus ⟨BitVec.ofNat 17 w, 0, 0⟩)

end Sys2Proof.Machine
end

