-- ==== Sys2Proof/Safety.lean ====
section
/-!
DEFINITION. The terms claims are stated in: the invariants of the reachable states (10_state.md R39) and
operations performed one after the other (20_memory.md R75).
-/

namespace Sys2Proof.Machine

/-- The invariants (R39), with the surface's fixed size (R35, R203; log 33) and the byte store's canonical
form. `shadow` says that no byte a write handler takes has ever been stored, so that it reads `RAM_INIT`. -/
structure State.Inv (s : State) : Prop where
  cursorX : s.cursorX < s.config.width
  cursorY : s.cursorY < s.config.height
  rows : s.grid.length = s.config.height
  columns : ∀ row ∈ s.grid, row.length = s.config.width
  surfaceRows : s.surface.length = s.config.height
  surfaceColumns : ∀ row ∈ s.surface, row.length = s.config.width
  colours : ∀ row ∈ s.grid, ∀ cell ∈ row, cell.fg = .white ∧ cell.bg = .black
  memory : Memory.wf s.config.ramInit s.ram
  shadow : ∀ cell ∈ s.ram, writeHandlerAt (regions s.config) cell.1 = none

/-- Operations performed one after the other, stopping at the first that has no successor state. -/
def execAll : List Instr → State → Result
  | [], s => .next s
  | i :: is, s =>
    match exec i s with
    | .next t => execAll is t
    | .fault r => .fault r
    | .refused r => .refused r

end Sys2Proof.Machine
end

