-- ==== Sys2Proof/Certificates/Slice0/Obligations.lean ====
section
/-!
DEFINITION. The statements for the provers. Each docstring names the rule of spec/ it formalises. Where a rule
carries the spec's own mark [decision] or [derived], the statement's basis is 'derived' and its docstring names
the decision. `returned` holds the result fields of R90 (log 12); a statement that mentions it says what the
operation returns.
-/

open Sys2Proof Sys2Proof.Machine

/-! ### Decoding (30_encoding.md) -/

/-- Words of the address-decode vectors TA1 to TA18 of 95_test_vectors.md decode to the operations they
stand for. -/
def Obligations.SpecWordsDecode : Prop :=
  decode Config.reference ⟨0x1EFFF, 0x41, 0x0300⟩ = .uartWr 0x41 0x0300 ∧
  decode Config.reference ⟨0x0EFFF, 0, 0x0300⟩ = .uartRd 0x0300 ∧
  decode Config.reference ⟨0x1E000, 0x41, 0⟩ = .conWr 0xE000 0x41 0 ∧
  decode Config.reference ⟨0x1E7CF, 0x5A, 0⟩ = .conWr 0xE7CF 0x5A 0 ∧
  decode Config.reference ⟨0x1E7D0, 0x77, 0⟩ = .ramWr 0xE7D0 0x77 0 ∧
  decode Config.reference ⟨0x1EFBF, 0x01, 0⟩ = .ramWr 0xEFBF 0x01 0 ∧
  decode Config.reference ⟨0x0E000, 0, 0⟩ = .ramRd 0xE000 0 ∧
  decode Config.reference ⟨0x0FFFF, 0, 0⟩ = .ramRd 0xFFFF 0

/-- The mask/match table of R93 selects, for every one of the 2^17 words, the operation the address comparison
selects in the reference configuration (R93 is marked [derived]). -/
def Obligations.MaskTableAgreesWithAddressDecode : Prop :=
  ∀ t : Transaction,
    (selectByMask t.word).map (BusOp.withOperands t) = some (decode Config.reference t)

/-- R95: the decode compares all 16 address bits; 0xEFFF is the only address that reaches the UART, the console
cells are the addresses 0xE000..0xE7CF written, every other access is plain RAM, and no two addresses of the
console name one cell. -/
def Obligations.DecodeComparesTheWholeAddress : Prop :=
  (∀ a b : Address, writeTakenBy Config.reference a = some .conWr →
    writeTakenBy Config.reference b = some .conWr →
    cellColumn Config.reference a = cellColumn Config.reference b →
    cellRow Config.reference a = cellRow Config.reference b → a = b) ∧
  ∀ t : Transaction,
    decode Config.reference t =
      if t.isWrite = true then
        if t.addr.toNat = 0xEFFF then .uartWr t.wdata t.pc
        else if 0xE000 ≤ t.addr.toNat ∧ t.addr.toNat ≤ 0xE7CF then .conWr t.addr t.wdata t.pc
        else .ramWr t.addr t.wdata t.pc
      else if t.addr.toNat = 0xEFFF then .uartRd t.pc
      else .ramRd t.addr t.pc

/-- Decoding the transaction of a well-formed bus operation gives the operation back, in every well-formed
configuration and with every operand at every value. -/
def Obligations.DecodeInvertsEncode : Prop :=
  ∀ (c : Config) (i : Instr) (t : Transaction), configWellFormed c = true → i.selectedByWord = true →
    i.wellFormed c = true → encode c i = some t → decode c t = i

/-- What a transaction decodes to is a well-formed bus operation whose transaction it is (a read carries no
`wdata`, R90). -/
def Obligations.EncodeInvertsDecode : Prop :=
  ∀ (c : Config) (t : Transaction), configWellFormed c = true → (t.isWrite = false → t.wdata = 0) →
    (decode c t).selectedByWord = true ∧ (decode c t).wellFormed c = true ∧ encode c (decode c t) = some t

/-- R96: the cell of a console address and the address of a cell are each other's inverse, and the corner
values of the rule. -/
def Obligations.ConsoleAddressesNameCells : Prop :=
  (∀ (c : Config) (addr : Address), configWellFormed c = true → writeTakenBy c addr = some .conWr →
    cellColumn c addr = (addr.toNat - c.consoleBase) % c.width ∧
    cellRow c addr = (addr.toNat - c.consoleBase) / c.width ∧
    cellColumn c addr < c.width ∧ cellRow c addr < c.height ∧
    cellAddress c (cellColumn c addr) (cellRow c addr) = addr) ∧
  (∀ (c : Config) (x y : Nat), configWellFormed c = true → x < c.width → y < c.height →
    (cellAddress c x y).toNat = c.consoleBase + y * c.width + x ∧
    writeTakenBy c (cellAddress c x y) = some .conWr ∧
    cellColumn c (cellAddress c x y) = x ∧ cellRow c (cellAddress c x y) = y) ∧
  (cellColumn Config.reference 0xE000 = 0 ∧ cellRow Config.reference 0xE000 = 0) ∧
  (cellColumn Config.reference 0xE04F = 79 ∧ cellRow Config.reference 0xE04F = 0) ∧
  (cellColumn Config.reference 0xE050 = 0 ∧ cellRow Config.reference 0xE050 = 1) ∧
  (cellOffset Config.reference 0xE7CF = 1999 ∧
    cellColumn Config.reference 0xE7CF = 79 ∧ cellRow Config.reference 0xE7CF = 24)

/-- R103: each command is the Monitor operation it stands for. -/
def Obligations.CommandsAreMonitorOperations : Prop :=
  (∀ bytes a, Command.operation (.load bytes (some a)) = .load bytes a) ∧
  Command.operation .go = .run ∧ Command.operation .run = .run ∧ Command.operation .step = .step ∧
  (∀ a, Command.operation (.breakAt a) = .watch a) ∧ (∀ a, Command.operation (.watchAt a) = .watch a) ∧
  Command.operation .exit = .terminate ∧ Command.operation .quit = .terminate

/-! ### The bus (40_bus_dispatch.md) -/

/-- R120: a read inside a region with a read handler invokes it; every other read is the RAM fallback. -/
def Obligations.BusReadInvokesHandlerOrRam : Prop :=
  ∀ (s : State) (addr pc : Address),
    (∃ t, exec (.busRd addr pc) s = .next t) ∧
    (∀ r ∈ regions s.config, r.start ≤ addr.toNat → addr.toNat ≤ r.last → r.onRead = some .uartRd →
      exec (.busRd addr pc) s = exec (.uartRd pc) s) ∧
    ((∀ r ∈ regions s.config, r.start ≤ addr.toNat → addr.toNat ≤ r.last → r.onRead = none) →
      exec (.busRd addr pc) s = exec (.ramRd addr pc) s)

/-- R121: a write inside a region with a write handler invokes it and nothing else; every other write stores
the byte into RAM. -/
def Obligations.BusWriteInvokesHandlerOrRam : Prop :=
  ∀ (s : State) (addr : Address) (wdata : Byte) (pc : Address),
    (∃ t, exec (.busWr addr wdata pc) s = .next t) ∧
    (∀ r ∈ regions s.config, r.start ≤ addr.toNat → addr.toNat ≤ r.last →
      (r.onWrite = some .uartWr → exec (.busWr addr wdata pc) s = exec (.uartWr wdata pc) s) ∧
      (r.onWrite = some .conWr → exec (.busWr addr wdata pc) s = exec (.conWr addr wdata pc) s)) ∧
    ((∀ r ∈ regions s.config, r.start ≤ addr.toNat → addr.toNat ≤ r.last → r.onWrite = none) →
      exec (.busWr addr wdata pc) s = exec (.ramWr addr wdata pc) s) ∧
    (∀ t, writeTakenBy s.config addr ≠ none → exec (.busWr addr wdata pc) s = .next t → t.ram = s.ram)

/-- R122: RAM_RD returns the RAM byte and writes nothing; `halt_req` is 0 and the program counter is ignored. An
address that nothing has written (none is listed) reads `RAM_INIT`. -/
def Obligations.RamReadReturnsTheByte : Prop :=
  ∀ (s : State) (addr pc : Address), readTakenBy s.config addr = none →
    exec (.ramRd addr pc) s = .next { s with returned := some ⟨some (s.ramByte addr.toNat), false⟩ } ∧
    ((∀ cell ∈ s.ram, cell.1 ≠ addr.toNat) → s.ramByte addr.toNat = s.config.ramInit.getD addr.toNat 0)

/-- R123: RAM_WR stores all eight bits at its address; every other byte, and all device state, is unchanged. -/
def Obligations.RamWriteStoresOneByte : Prop :=
  ∀ (s : State) (addr : Address) (wdata : Byte) (pc : Address), writeTakenBy s.config addr = none →
    ∃ t, exec (.ramWr addr wdata pc) s = .next t ∧
      t.ramByte addr.toNat = wdata ∧ (∀ a, a ≠ addr.toNat → t.ramByte a = s.ramByte a) ∧
      t = { s with ram := t.ram, returned := some ⟨none, false⟩ }

/-- R132: at an address outside the regions, a read returns the byte last written there, whatever other
transactions come between. -/
def Obligations.RamReadAfterWrite : Prop :=
  ∀ (s : State) (addr : Address) (v : Byte) (p p' : Address) (between : List Transaction),
    writeTakenBy s.config addr = none → readTakenBy s.config addr = none →
    (∀ t ∈ between, t.isWrite = true → t.addr ≠ addr) →
    ∃ u, execAll (.busWr addr v p :: between.map (decode s.config) ++ [.busRd addr p']) s = .next u ∧
      u.returned = some ⟨some v, false⟩

/-- A bus operation at an address that does not select it is refused (the model's choice, log 13; from R93 and
R128). -/
def Obligations.UnselectedBusOperationsAreRefused : Prop :=
  ∀ (s : State) (addr : Address) (v : Byte) (pc : Address),
    (writeTakenBy s.config addr ≠ none → exec (.ramWr addr v pc) s = .refused .notSelected) ∧
    (readTakenBy s.config addr ≠ none → exec (.ramRd addr pc) s = .refused .notSelected) ∧
    (writeTakenBy s.config addr ≠ some .conWr → exec (.conWr addr v pc) s = .refused .notSelected)

/-- R99: no transaction word is illegal and none traps: every transaction completes, in every
configuration; and the addresses 0xE7D0..0xE7FF and 0xE800..0xEFFE are plain RAM. -/
def Obligations.EveryTransactionCompletes : Prop :=
  (∀ (s : State) (t : Transaction), ∃ u, exec (decode s.config t) s = .next u) ∧
  (∀ t : Transaction, 0xE7D0 ≤ t.addr.toNat → t.addr.toNat ≤ 0xEFFE →
    decode Config.reference t =
      if t.isWrite = true then .ramWr t.addr t.wdata t.pc else .ramRd t.addr t.pc)

/-- What no transaction touches, what no read touches, what no write touches, and which byte of RAM a
transaction can change (from R122, R123, R140, R141, R160). -/
def Obligations.TransactionFrame : Prop :=
  ∀ (s u : State) (t : Transaction), exec (decode s.config t) s = .next u →
    (u.config = s.config ∧ u.haltAddress = s.haltAddress ∧ u.watchAddress = s.watchAddress ∧ u.cpu = s.cpu ∧
      u.surface = s.surface ∧ u.loadFailures = s.loadFailures ∧ u.terminated = s.terminated ∧
      u.resets = s.resets ∧ u.inbox = s.inbox ∧ u.cpuScript = s.cpuScript) ∧
    (t.isWrite = false → u.grid = s.grid ∧ u.cursorX = s.cursorX ∧ u.cursorY = s.cursorY ∧
      u.updated = s.updated ∧ u.txLog = s.txLog ∧ u.ram = s.ram) ∧
    (t.isWrite = true → u.pendingInput = s.pendingInput) ∧
    (∀ a, t.isWrite = false ∨ writeTakenBy s.config t.addr ≠ none ∨ a ≠ t.addr.toNat →
      u.ramByte a = s.ramByte a)

/-- A read of an address whose writes a handler takes returns `RAM_INIT` for ever: the screen cannot be read
back (R128, marked [derived]). -/
def Obligations.ShadowRamReadsItsResetContents : Prop :=
  ∀ (s : State) (addr pc : Address), s.Inv → writeTakenBy s.config addr ≠ none →
    readTakenBy s.config addr = none →
    ∃ t, exec (.busRd addr pc) s = .next t ∧
      t.returned = some ⟨some (s.config.ramInit.getD addr.toNat 0), false⟩

/-! ### The UART (41_uart.md) and the halt request (60_exceptions.md) -/

/-- R144: `halt_req` is 1 exactly when the presented program counter equals the halt address; it makes the
environment clear `running`; the check is made on every UART write and read, RUNNING or HALTED. -/
def Obligations.HaltCheckComparesProgramCounter : Prop :=
  ∀ (s : State) (pc : Address),
    (s.haltAddress = some pc → ∃ t, exec (.haltCheck pc) s = .next t ∧
      t.returned = some ⟨none, true⟩ ∧ t.running = false ∧
      t = { s with returned := t.returned, running := t.running, haltReports := t.haltReports }) ∧
    (s.haltAddress ≠ some pc →
      exec (.haltCheck pc) s = .next { s with returned := some ⟨none, false⟩ }) ∧
    (∀ v, ∃ t, exec (.uartWr v pc) s = .next t ∧
      t.returned = some ⟨none, decide (s.haltAddress = some pc)⟩) ∧
    (∃ t d, exec (.uartRd pc) s = .next t ∧ t.returned = some ⟨some d, decide (s.haltAddress = some pc)⟩)

/-- R221: the halt clears `running` and counts one report, only when `running` was true. -/
def Obligations.RequestHaltStopsAndReports : Prop :=
  ∀ s : State,
    (s.running = true →
      exec .requestHalt s = .next { s with running := false, haltReports := s.haltReports + 1 }) ∧
    (s.running = false → exec .requestHalt s = .next s) ∧
    execAll [.requestHalt, .requestHalt] s = exec .requestHalt s

/-- UART_WR appends the byte to `txLog`, performs PUTCHAR, and checks for a halt; the emit is unconditional
(R140 with the spec's decision D3; the report with D15). -/
def Obligations.UartWriteEmitsAndPrints : Prop :=
  ∀ (s : State) (value : Byte) (pc : Address),
    ∃ t u, exec (.uartWr value pc) s = .next t ∧ exec (.putchar value) s = .next u ∧
      t = { u with
        txLog := s.txLog ++ [value]
        returned := some ⟨none, decide (s.haltAddress = some pc)⟩
        running := s.running && !decide (s.haltAddress = some pc)
        haltReports :=
          if s.running = true ∧ s.haltAddress = some pc then s.haltReports + 1 else s.haltReports }

/-- R141: UART_RD returns the pending byte and clears it; the byte is delivered also when the halt check
fires. -/
def Obligations.UartReadDeliversAndClears : Prop :=
  ∀ (s : State) (pc : Address),
    (s.haltAddress ≠ some pc →
      exec (.uartRd pc) s = .next { s with pendingInput := 0, returned := some ⟨some s.pendingInput, false⟩ }) ∧
    (s.haltAddress = some pc → ∃ t, exec (.uartRd pc) s = .next t ∧
      t.returned = some ⟨some s.pendingInput, true⟩ ∧ t.pendingInput = 0 ∧ t.running = false ∧
      t = { s with pendingInput := 0, returned := t.returned, running := t.running,
                   haltReports := t.haltReports })

/-- R145: after INPUT_PUSH(c) the next UART read returns `c`, and the one after it, with no push between,
returns 0, whatever other transactions come between. -/
def Obligations.UartDeliversOnce : Prop :=
  ∀ (s : State) (c : Byte) (p p' : Address) (before between : List Transaction),
    (∀ t ∈ before, t.isWrite = true ∨ readTakenBy s.config t.addr = none) →
    (∀ t ∈ between, t.isWrite = true ∨ readTakenBy s.config t.addr = none) →
    ∃ u v h h', execAll (.inputPush c :: before.map (decode s.config) ++ [.uartRd p]) s = .next u ∧
      u.returned = some ⟨some c, h⟩ ∧
      execAll (between.map (decode s.config) ++ [.uartRd p']) u = .next v ∧
      v.returned = some ⟨some 0, h'⟩

/-- R142: INPUT_PUSH overwrites the pending byte and does nothing else; no halt check is made and `updated` is
not set. -/
def Obligations.InputPushOverwrites : Prop :=
  ∀ (s : State) (c : Byte), exec (.inputPush c) s = .next { s with pendingInput := c }

/-- SET_HALT in HALTED writes the halt address alone, and refuses one above 0xFFFF (R143, R131: the spec's
decisions D12, D9; that `none` is accepted also under HALT_LINKED is the model's choice, log 30). -/
def Obligations.SetHaltConfiguresTheAddress : Prop :=
  ∀ s : State, s.running = false →
    exec (.setHalt none) s = .next { s with haltAddress := none } ∧
    (∀ a, a ≤ 0xFFFF → exec (.setHalt (some a)) s = .next { s with haltAddress := some (BitVec.ofNat 16 a) }) ∧
    (∀ a, 0xFFFF < a → exec (.setHalt (some a)) s = .refused .addressRange)

/-- A transaction's `halt_req` is 1 exactly when it is a UART access whose program counter equals the halt
address (R220; what it returns, with the model's `returned`, log 12). -/
def Obligations.OnlyUartAccessesRequestHalts : Prop :=
  ∀ (s : State) (t : Transaction),
    ∃ u d, exec (decode s.config t) s = .next u ∧
      u.returned = some ⟨d, decide (t.addr.toNat = s.config.uartAddr ∧ s.haltAddress = some t.pc)⟩ ∧
      (d.isSome = !t.isWrite)

/-- A halt request while HALTED does nothing, and a step makes one report exactly when it stops the run, however
many halt requests fall in it (R225); STEP does not set `running` (R192). That a halt while HALTED is silent is the
spec's decision D15 (R221; log 21), and STEP in HALTED is its D24. -/
def Obligations.HaltsDoNotNest : Prop :=
  (∀ s : State, s.running = false → exec .requestHalt s = .next s) ∧
  (∀ s t : State, exec .step s = .next t →
    (t.running = true → s.running = true) ∧
    t.haltReports = s.haltReports + if s.running = true ∧ t.running = false then 1 else 0)

/-- The ways `running` becomes false in one operation: one halt report, CANCEL, TERMINATE, or RESET (R205,
marked [derived], and R260). -/
def Obligations.RunStopsOnlyByHaltOrCancel : Prop :=
  ∀ (i : Instr) (s t : State), exec i s = .next t → s.running = true → t.running = false →
    t.haltReports = s.haltReports + 1 ∨ i = .cancel ∨ i = .terminate ∨ i = .reset

/-- `running` is set true by RUN alone (R32). -/
def Obligations.OnlyRunStartsRunning : Prop :=
  ∀ (i : Instr) (s t : State), exec i s = .next t → s.running = false → t.running = true → i = .run

/-! ### The console (42_console.md) -/

/-- R160: CON_WR writes the one cell its address selects, white on black, sets `updated`, and touches neither
the cursor nor RAM; `halt_req` is 0. -/
def Obligations.ConsoleWriteSetsOneCell : Prop :=
  ∀ (s : State) (addr : Address) (value : Byte) (pc : Address), s.Inv →
    s.config.consoleBase ≤ addr.toNat →
    addr.toNat ≤ s.config.consoleBase + s.config.width * s.config.height - 1 →
    ∃ t, exec (.conWr addr value pc) s = .next t ∧
      (∀ x y, Grid.cell? t.grid x y =
        if x = (addr.toNat - s.config.consoleBase) % s.config.width ∧
            y = (addr.toNat - s.config.consoleBase) / s.config.width
        then some ⟨value, .white, .black⟩ else Grid.cell? s.grid x y) ∧
      t = { s with grid := t.grid, updated := true, returned := some ⟨none, false⟩ }

/-- PUTCHAR: the glyph's cell, the eager wrap, the newline, the scroll and the clamp: the five outcomes of R164
(marked [derived]) with the cells of R162 and R163. -/
def Obligations.PutCharFiveOutcomes : Prop :=
  ∀ (s : State) (v : Byte), s.Inv →
    let newline := v = newlineByte s.config
    let rowEnds := newline ∨ s.cursorX + 1 = s.config.width
    let lastRow := s.cursorY + 1 = s.config.height
    let wrote := fun x y : Nat =>
      if ¬ newline ∧ x = s.cursorX ∧ y = s.cursorY then some ⟨v, .white, .black⟩ else Grid.cell? s.grid x y
    ∃ t, exec (.putchar v) s = .next t ∧
      (rowEnds → t.cursorX = 0) ∧ (¬ rowEnds → t.cursorX = s.cursorX + 1) ∧
      (rowEnds ∧ ¬ lastRow → t.cursorY = s.cursorY + 1) ∧ (¬ rowEnds ∨ lastRow → t.cursorY = s.cursorY) ∧
      (¬ (rowEnds ∧ lastRow) → ∀ x y, Grid.cell? t.grid x y = wrote x y) ∧
      (rowEnds ∧ lastRow → ∀ x y, x < s.config.width →
        Grid.cell? t.grid x y =
          if y + 1 = s.config.height then some ⟨0, .white, .black⟩ else wrote x (y + 1)) ∧
      t = { s with grid := t.grid, cursorX := t.cursorX, cursorY := t.cursorY, updated := true }

/-- R163: SCROLL copies row `i+1` into row `i`, blanks the last row, and touches neither the cursor nor
`updated`. -/
def Obligations.ScrollMovesRowsUp : Prop :=
  ∀ s : State, s.Inv →
    ∃ t, exec .scroll s = .next t ∧
      (∀ x y, x < s.config.width → y + 1 < s.config.height →
        Grid.cell? t.grid x y = Grid.cell? s.grid x (y + 1)) ∧
      (∀ x, x < s.config.width →
        Grid.cell? t.grid x (s.config.height - 1) = some ⟨0, .white, .black⟩) ∧
      t = { s with grid := t.grid }

/-- WIDTH consecutive glyphs advance the cursor exactly one row, and on the last row leave it there (R166,
marked [derived]; 90_conflicts.md C9). -/
def Obligations.FullRowOfGlyphsAdvancesOneRow : Prop :=
  ∀ (s : State) (vs : List Byte), s.Inv → vs.length = s.config.width →
    (∀ v ∈ vs, v ≠ newlineByte s.config) →
    ∃ t, execAll (vs.map .putchar) s = .next t ∧ t.cursorX = s.cursorX ∧
      t.cursorY = if s.cursorY + 1 < s.config.height then s.cursorY + 1 else s.cursorY

/-- PRESENT copies a dirty grid and clears the flag when the surface's present succeeds, and otherwise changes
nothing (R165 with the spec's decision D17). -/
def Obligations.PresentCopiesADirtyGrid : Prop :=
  ∀ s : State,
    (s.updated = true → exec (.present true) s = .next { s with surface := s.grid, updated := false }) ∧
    exec (.present false) s = .next s ∧
    (s.updated = false → exec (.present true) s = .next s)

/-- Nothing clears the dirty flag but a successful present and RESET (R31 with D16; R260). -/
def Obligations.OnlyPresentClearsTheDirtyFlag : Prop :=
  ∀ (i : Instr) (s t : State), exec i s = .next t → s.updated = true → t.updated = false →
    i = .present true ∨ i = .reset

/-- No missed update: an operation that changes the grid sets the dirty flag, SCROLL by itself (R163) and RESET
(R260) apart (R31 with D16). -/
def Obligations.GridChangesAreMarkedDirty : Prop :=
  ∀ (i : Instr) (s t : State), exec i s = .next t → i ≠ .scroll → i ≠ .reset → t.grid ≠ s.grid →
    t.updated = true

/-! ### The Monitor, the adapter and the CPU (43_host_monitor.md) -/

/-- LOAD in HALTED, inside the address space, is BUS_WR of each byte in ascending order with the current
`cpu.pc` (R190 with D21, R105). -/
def Obligations.LoadWritesThroughTheBus : Prop :=
  ∀ (s : State) (bs : List Byte) (start : Nat), s.running = false → start + bs.length ≤ 0x10000 →
    ∃ t, exec (.load (some bs) start) s = .next t ∧
      execAll (bs.mapIdx fun i b => .busWr (BitVec.ofNat 16 (start + i)) b s.cpu.pc) s = .next t

/-- A LOAD whose bytes cannot be obtained changes nothing but the count of such reports, and one that would pass
0xFFFF is refused (R190 with D9, R235; the count is the model's, log 31). -/
def Obligations.LoadFailsWhole : Prop :=
  ∀ (s : State) (bs : List Byte) (start : Nat), s.running = false →
    exec (.load none start) s = .next { s with loadFailures := s.loadFailures + 1 } ∧
    (0x10000 < start + bs.length → exec (.load (some bs) start) s = .refused .addressRange)

/-- A LOAD that covers no device address puts byte `i` at `startAddress + i`, and changes no other byte (R67,
R190). -/
def Obligations.LoadedBytesAreInRam : Prop :=
  ∀ (s : State) (bs : List Byte) (start : Nat), s.running = false → start + bs.length ≤ 0x10000 →
    (∀ i, i < bs.length → writeTakenBy s.config (BitVec.ofNat 16 (start + i)) = none) →
    ∃ t, exec (.load (some bs) start) s = .next t ∧
      (∀ i (h : i < bs.length), t.ramByte (start + i) = bs[i]) ∧
      (∀ a, a < start ∨ start + bs.length ≤ a → t.ramByte a = s.ramByte a) ∧
      t = { s with ram := t.ram, returned := t.returned }

/-- Loading the same bytes twice is loading them once, for a load that does not cover the UART (R190's corner
case, 90_conflicts.md C14). -/
def Obligations.LoadTwiceIsLoadOnce : Prop :=
  ∀ (s : State) (bs : List Byte) (start : Nat), s.Inv → s.running = false → start + bs.length ≤ 0x10000 →
    (s.config.uartAddr < start ∨ start + bs.length ≤ s.config.uartAddr) →
    ∃ t, exec (.load (some bs) start) s = .next t ∧ exec (.load (some bs) start) t = .next t

/-- WATCH in HALTED sets the watch address, and the halt address with it when HALT_LINKED; an address above
0xFFFF is refused (R191 with D12, R131 with D9). -/
def Obligations.WatchSetsTheAddress : Prop :=
  ∀ (s : State) (a : Nat), s.running = false →
    (a ≤ 0xFFFF → s.config.haltLinked = true →
      exec (.watch a) s =
        .next { s with watchAddress := some (BitVec.ofNat 16 a), haltAddress := some (BitVec.ofNat 16 a) }) ∧
    (a ≤ 0xFFFF → s.config.haltLinked = false →
      exec (.watch a) s = .next { s with watchAddress := some (BitVec.ofNat 16 a) }) ∧
    (0xFFFF < a → exec (.watch a) s = .refused .addressRange)

/-- STEP performs what the CPU does, transaction by transaction, to its end, and then makes the watch check
(R192 with D15, D24; R198 with D13). -/
def Obligations.StepPerformsTheCpuRun : Prop :=
  (∀ s : State, s.cpuScript = [] →
    ∃ u, State.perform (Config.cpuStep s.cpu) s = u ∧
      exec .step s = if u.watchAddress = some u.cpu.pc then exec .requestHalt u else .next u) ∧
  (∀ (next : Cpu) (s : State), State.perform (.done next) s = { s with cpu := next }) ∧
  (∀ (addr pc : Address) (k : Byte → CpuRun) (s : State),
    ∃ u d h, exec (.busRd addr pc) s = .next u ∧ u.returned = some ⟨some d, h⟩ ∧
      State.perform (.read addr pc k) s = State.perform (k d) u) ∧
  (∀ (addr : Address) (wdata : Byte) (pc : Address) (r : CpuRun) (s : State),
    ∃ u, exec (.busWr addr wdata pc) s = .next u ∧
      State.perform (.write addr wdata pc r) s = State.perform r u)

/-- STEP of a scripted CPU (95_test_vectors.md, the M vectors; log 6): the listed transactions in order, the
listed program counter, then the watch check. -/
def Obligations.StepOfAScriptedCpu : Prop :=
  ∀ (s : State) (i : ScriptStep) (rest : List ScriptStep),
    s.cpuScript = i :: rest →
    ∃ u, execAll (i.accesses.map (decode s.config)) { s with cpuScript := rest } = .next u ∧
      exec .step s =
        if s.watchAddress = some i.pcAfter then
          exec .requestHalt { u with cpu := { s.cpu with pc := i.pcAfter } }
        else .next { u with cpu := { s.cpu with pc := i.pcAfter } }

/-- What no STEP touches (R192 with R198; the script moves on by one instruction, log 6). -/
def Obligations.StepFrame : Prop :=
  ∀ s : State, ∃ t, exec .step s = .next t ∧
    t.config = s.config ∧ t.haltAddress = s.haltAddress ∧ t.watchAddress = s.watchAddress ∧
    t.surface = s.surface ∧ t.loadFailures = s.loadFailures ∧ t.terminated = s.terminated ∧ t.resets = s.resets ∧ t.inbox = s.inbox ∧
    t.cpuScript = s.cpuScript.tail ∧
    (∀ a, writeHandlerAt (regions s.config) a ≠ none → t.ramByte a = s.ramByte a)

/-- After a step that leaves the program counter at the watch address the machine is HALTED, with exactly one
report if it was RUNNING and none if it was not (R192 with D15; the source's scenario S8). -/
def Obligations.WatchAddressHaltsOnce : Prop :=
  ∀ s t : State, exec .step s = .next t → s.watchAddress = some t.cpu.pc →
    t.running = false ∧ t.haltReports = s.haltReports + if s.running = true then 1 else 0

/-- RUN in HALTED goes to RUNNING and changes nothing else (R193, R200). -/
def Obligations.RunGoesToRunning : Prop :=
  ∀ s : State, s.running = false → exec .run s = .next { s with running := true }

/-- RESET_VECTOR_LOAD sets `cpu.pc` to the two bytes at the vector, low byte first, where both addresses are
RAM (R194 with D20, R65). -/
def Obligations.ResetVectorIsLittleEndian : Prop :=
  ∀ s : State, s.running = false →
    s.config.uartAddr ≠ s.config.resetVector → s.config.uartAddr ≠ s.config.resetVector + 1 →
    ∃ t, exec .resetVectorLoad s = .next t ∧
      t.cpu.pc.toNat =
        (s.ramByte s.config.resetVector).toNat + 256 * (s.ramByte (s.config.resetVector + 1)).toNat ∧
      t = { s with
        cpu := { s.cpu with pc := t.cpu.pc }
        returned := some ⟨some (s.ramByte (s.config.resetVector + 1)), false⟩ }

/-- ENTER_AT in HALTED writes `cpu.pc` alone (R196 with D25). -/
def Obligations.EnterAtSetsTheProgramCounter : Prop :=
  ∀ (s : State) (a : Address), s.running = false →
    exec (.enterAt a) s = .next { s with cpu := { s.cpu with pc := a } }

/-- CANCEL clears `running` without a report; TERMINATE does so too and sets `terminated` (R195 with D23, R197
with D30). -/
def Obligations.CancelAndTerminateAreSilent : Prop :=
  ∀ s : State,
    exec .cancel s = .next { s with running := false } ∧
    exec .terminate s = .next { s with running := false, terminated := true }

/-- TEXT_INPUT pushes the first code point when it is a byte, ignores an empty text, and refuses a code point
above 0xFF under INPUT_NARROW = refuse; under the other choice some byte is pushed (R201 with D18, D19; the byte
is free, log 16). -/
def Obligations.TextInputPushesTheFirstCharacter : Prop :=
  ∀ (s : State) (cp : Nat) (rest : List Nat),
    exec (.textInput []) s = .next s ∧
    (cp ≤ 0xFF → exec (.textInput (cp :: rest)) s = .next { s with pendingInput := BitVec.ofNat 8 cp }) ∧
    (0xFF < cp → s.config.inputNarrow = .refuse →
      exec (.textInput (cp :: rest)) s = .refused .inputRange) ∧
    (0xFF < cp → s.config.inputNarrow = .narrow →
      ∃ b, exec (.textInput (cp :: rest)) s = .next { s with pendingInput := b })

/-- The operations accepted only in HALTED are refused while RUNNING (R200, R206 with D27; the refusal is the
model's form of it, log 8). -/
def Obligations.CommandsAreRefusedWhileRunning : Prop :=
  ∀ s : State, s.running = true →
    (∀ bytes start, exec (.load bytes start) s = .refused .onlyWhileHalted) ∧
    (∀ a, exec (.watch a) s = .refused .onlyWhileHalted) ∧
    (∀ h, exec (.setHalt h) s = .refused .onlyWhileHalted) ∧
    exec .run s = .refused .onlyWhileHalted ∧
    exec .resetVectorLoad s = .refused .onlyWhileHalted ∧
    (∀ a, exec (.enterAt a) s = .refused .onlyWhileHalted)

/-! ### Reset (70_reset_and_hazards.md) -/

/-- The state right after reset, in the reference configuration: HALTED is the source's; the other values are
the spec's decisions D3, D11, D15, D30; `cpu`, the cells of `surface` and RAM are free (log 1, 2, 3), and
`loadFailures` is the model's (log 31). -/
def Obligations.ResetStateValues : Prop :=
  State.reset.running = false ∧ State.reset.pendingInput = 0 ∧ State.reset.haltAddress = none ∧
  State.reset.watchAddress = none ∧ State.reset.cursorX = 0 ∧ State.reset.cursorY = 0 ∧
  State.reset.updated = false ∧ State.reset.txLog = [] ∧ State.reset.haltReports = 0 ∧
  State.reset.loadFailures = 0 ∧
  State.reset.terminated = false ∧ State.reset.config = Config.reference ∧
  (∀ x y, x < 80 → y < 25 → Grid.cell? State.reset.grid x y = some ⟨0, .white, .black⟩) ∧
  (∀ a, State.reset.ramByte a = Config.anyRam.getD a 0)

/-- RESET constructs the machine again, from its own configuration: the values of R260 (the spec's
decisions D10, D11; `cpu` and the surface's cells are left open by R261, and requests that wait outside stay, log 23;
`loadFailures` is the model's, log 31, and the surface's size is log 33). -/
def Obligations.ResetConstructsTheMachine : Prop :=
  ∀ s : State,
    ∃ t, exec .reset s = .next t ∧
      (∀ a, t.ramByte a = s.config.ramInit.getD a 0) ∧
      (∀ x y, x < s.config.width → y < s.config.height → Grid.cell? t.grid x y = some ⟨0, .white, .black⟩) ∧
      t.pendingInput = 0 ∧ t.haltAddress = none ∧ t.cursorX = 0 ∧ t.cursorY = 0 ∧ t.updated = false ∧
      t.running = false ∧ t.watchAddress = none ∧ t.txLog = [] ∧ t.haltReports = 0 ∧
      t.loadFailures = 0 ∧ t.terminated = false ∧
      t.surface.length = s.config.height ∧ (∀ row ∈ t.surface, row.length = s.config.width) ∧
      t.config = s.config ∧ t.inbox = s.inbox ∧ t.cpuScript = s.cpuScript

/-- Construction from an ill-formed configuration builds no machine, and from any other it does (R125 with D8,
D26; R9, marked [derived]; the widths are log 32, which reason is recorded where several fail is log 29); so
every machine's configuration satisfies R9. -/
def Obligations.IllFormedConfigurationsBuildNoMachine : Prop :=
  (∀ (c : Config) (n : Nat) (q : List Request) (p : List ScriptStep),
    (c.width = 0 ∨ c.height = 0 → construct c n q p = .refused .emptyGrid) ∧
    (1 ≤ c.width → 1 ≤ c.height →
      c.addrWidth ≠ 16 ∨ c.dataWidth ≠ 8 ∨ c.ramSize ≠ 0x10000 ∨
        0xFFFF < c.consoleBase + c.width * c.height - 1 ∨ 0xFFFF < c.uartAddr ∨ 0xFFFF < c.resetVector + 1 →
      construct c n q p = .refused .addressRange) ∧
    (1 ≤ c.width → 1 ≤ c.height → c.addrWidth = 16 → c.dataWidth = 8 → c.ramSize = 0x10000 →
      c.consoleBase + c.width * c.height - 1 ≤ 0xFFFF → c.uartAddr ≤ 0xFFFF → c.resetVector + 1 ≤ 0xFFFF →
      (c.consoleBase ≤ c.uartAddr ∧ c.uartAddr ≤ c.consoleBase + c.width * c.height - 1 →
        construct c n q p = .refused .regionOverlap) ∧
      (c.uartAddr < c.consoleBase ∨ c.consoleBase + c.width * c.height - 1 < c.uartAddr →
        ∃ t, construct c n q p = .next t ∧ t.config = c))) ∧
  ∀ s : State,
    1 ≤ s.config.width ∧ 1 ≤ s.config.height ∧
    s.config.addrWidth = 16 ∧ s.config.dataWidth = 8 ∧ s.config.ramSize = 0x10000 ∧
    s.config.consoleBase + s.config.width * s.config.height - 1 ≤ 0xFFFF ∧ s.config.uartAddr ≤ 0xFFFF ∧
    s.config.resetVector + 1 ≤ 0xFFFF ∧
    (s.config.uartAddr < s.config.consoleBase ∨
      s.config.consoleBase + s.config.width * s.config.height - 1 < s.config.uartAddr)

/-! ### The machine's step, and its invariants -/

/-- In HALTED, a transaction at the head of the inbox: the step is `exec` of the operation it decodes to, on the
state with that request taken (from R90, R93; the inbox is the model's, log 7). While RUNNING the CPU alone issues
transactions (R205): there the step is STEP, which runs `exec` of each decoded transaction. -/
def Obligations.StepRunsTheDecodedTransaction : Prop :=
  ∀ (s : State) (t : Transaction) (rest : List Request), s.terminated = false →
    (s.running = false → s.inbox = .bus t :: rest →
      step s = exec (decode s.config t) { s with inbox := rest }) ∧
    (∀ pc', s.running = true → s.inbox = [] → s.cpuScript = [⟨[t], pc'⟩] → ∃ u,
      exec (decode s.config t) { s with cpuScript := [] } = .next u ∧
      step s =
        if s.watchAddress = some pc' then exec .requestHalt { u with cpu := { s.cpu with pc := pc' } }
        else .next { u with cpu := { s.cpu with pc := pc' } })

/-- A request at the head of the inbox that may be taken now: the step performs its operation (from R76, R92,
R200, R206; log 7). -/
def Obligations.StepRunsTheRequestedOperation : Prop :=
  ∀ (s : State) (r : Request) (rest : List Request) (i : Instr), s.terminated = false →
    s.inbox = r :: rest → decodeRequest s.config r = some i →
    (s.running = true → waitsForHalt r = false) →
    step s = exec i { s with inbox := rest }

/-- While RUNNING, with nothing to be taken but requests that wait for HALTED, the step is STEP, and those
requests stay: RUN's loop (R193; log 8, 9). A `pass` at the head is that too. -/
def Obligations.RunningMachineStepsTheCpu : Prop :=
  (∀ s : State, s.terminated = false → s.running = true → (∀ r ∈ s.inbox, waitsForHalt r = true) →
    step s = exec .step s) ∧
  (∀ (s : State) (rest : List Request), s.terminated = false → s.running = true → s.inbox = .pass :: rest →
    step s = exec .step { s with inbox := rest })

/-- In HALTED with no request the machine waits (R234), and after TERMINATE nothing occurs (R197 with D30;
log 10). -/
def Obligations.HaltedMachineWaits : Prop :=
  (∀ s : State, s.running = false → s.inbox = [] → step s = .next s) ∧
  (∀ s : State, s.terminated = true → step s = .next s)

/-- The reset state meets the invariant. -/
def Obligations.ResetStateMeetsTheInvariant : Prop := State.reset.Inv

/-- Every step keeps the invariant: the cursor in bounds, the grid's shape, white on black, the byte store's
canonical form, no stored byte where a write handler takes the write (R39, marked [derived]), and the surface's
fixed size (R35, R203; which size is log 33). That the configuration is well formed is in its type (D26), and
IllFormedConfigurationsBuildNoMachine says it. -/
def Obligations.EveryStepKeepsTheInvariant : Prop :=
  ∀ s t : State, s.Inv → step s = .next t → t.Inv

/-- No operation changes the configuration (R20). -/
def Obligations.ConfigurationNeverChanges : Prop :=
  ∀ (i : Instr) (s t : State), exec i s = .next t → t.config = s.config

/-- The ways `running` becomes false in a step: STEP, with one report, by the watch address or by a UART access at
a configured halt address, CANCEL, or TERMINATE (R205, marked [derived]); no other request of the inbox stops a
run, RESET among them (R206 with D27). -/
def Obligations.ARunEndsInThreeWays : Prop :=
  ∀ s t : State, step s = .next t → s.running = true → t.running = false →
    (step s = exec .step s.turn.2 ∧ t.haltReports = s.haltReports + 1 ∧
      (s.watchAddress = some t.cpu.pc ∨ s.haltAddress ≠ none)) ∨
    s.turn.1 = some .cancel ∨ s.turn.1 = some .terminate
end

