-- ==== Sys2Proof/Laws/State.lean ====
section
/-!
SUPPORT. What each named update of the state does to each field: one lemma per field per update, true by `rfl`,
and what the shared operations made of them leave alone.
-/

namespace Sys2Proof.Machine

/-- Every machine's configuration is well formed (R125, D26). -/
@[simp] theorem State.config_wellFormed (s : State) : configWellFormed s.config = true := s.setup.wellFormed

@[simp] theorem State.constructed_config (c : WellFormedConfig) (n : Nat) (q : List Request)
    (p : List ScriptStep) : (State.constructed c n q p).config = c.toConfig := rfl

variable (s : State)

/-! `markUpdated` -/

@[simp] theorem State.markUpdated_setup : (s.markUpdated).setup = s.setup := rfl
@[simp] theorem State.markUpdated_config : (s.markUpdated).config = s.config := rfl
@[simp] theorem State.markUpdated_ram : (s.markUpdated).ram = s.ram := rfl
@[simp] theorem State.markUpdated_pendingInput : (s.markUpdated).pendingInput = s.pendingInput := rfl
@[simp] theorem State.markUpdated_haltAddress : (s.markUpdated).haltAddress = s.haltAddress := rfl
@[simp] theorem State.markUpdated_grid : (s.markUpdated).grid = s.grid := rfl
@[simp] theorem State.markUpdated_cursorX : (s.markUpdated).cursorX = s.cursorX := rfl
@[simp] theorem State.markUpdated_cursorY : (s.markUpdated).cursorY = s.cursorY := rfl
@[simp] theorem State.markUpdated_updated : (s.markUpdated).updated = true := rfl
@[simp] theorem State.markUpdated_cpu : (s.markUpdated).cpu = s.cpu := rfl
@[simp] theorem State.markUpdated_running : (s.markUpdated).running = s.running := rfl
@[simp] theorem State.markUpdated_watchAddress : (s.markUpdated).watchAddress = s.watchAddress := rfl
@[simp] theorem State.markUpdated_surface : (s.markUpdated).surface = s.surface := rfl
@[simp] theorem State.markUpdated_txLog : (s.markUpdated).txLog = s.txLog := rfl
@[simp] theorem State.markUpdated_haltReports : (s.markUpdated).haltReports = s.haltReports := rfl
@[simp] theorem State.markUpdated_loadFailures : (s.markUpdated).loadFailures = s.loadFailures := rfl
@[simp] theorem State.markUpdated_terminated : (s.markUpdated).terminated = s.terminated := rfl
@[simp] theorem State.markUpdated_resets : (s.markUpdated).resets = s.resets := rfl
@[simp] theorem State.markUpdated_returned : (s.markUpdated).returned = s.returned := rfl
@[simp] theorem State.markUpdated_inbox : (s.markUpdated).inbox = s.inbox := rfl
@[simp] theorem State.markUpdated_cpuScript : (s.markUpdated).cpuScript = s.cpuScript := rfl

/-! `returns` -/

@[simp] theorem State.returns_setup (d : Option Byte) (h : Bool) : (s.returns d h).setup = s.setup := rfl
@[simp] theorem State.returns_config (d : Option Byte) (h : Bool) : (s.returns d h).config = s.config := rfl
@[simp] theorem State.returns_ram (d : Option Byte) (h : Bool) : (s.returns d h).ram = s.ram := rfl
@[simp] theorem State.returns_pendingInput (d : Option Byte) (h : Bool) : (s.returns d h).pendingInput = s.pendingInput := rfl
@[simp] theorem State.returns_haltAddress (d : Option Byte) (h : Bool) : (s.returns d h).haltAddress = s.haltAddress := rfl
@[simp] theorem State.returns_grid (d : Option Byte) (h : Bool) : (s.returns d h).grid = s.grid := rfl
@[simp] theorem State.returns_cursorX (d : Option Byte) (h : Bool) : (s.returns d h).cursorX = s.cursorX := rfl
@[simp] theorem State.returns_cursorY (d : Option Byte) (h : Bool) : (s.returns d h).cursorY = s.cursorY := rfl
@[simp] theorem State.returns_updated (d : Option Byte) (h : Bool) : (s.returns d h).updated = s.updated := rfl
@[simp] theorem State.returns_cpu (d : Option Byte) (h : Bool) : (s.returns d h).cpu = s.cpu := rfl
@[simp] theorem State.returns_running (d : Option Byte) (h : Bool) : (s.returns d h).running = s.running := rfl
@[simp] theorem State.returns_watchAddress (d : Option Byte) (h : Bool) : (s.returns d h).watchAddress = s.watchAddress := rfl
@[simp] theorem State.returns_surface (d : Option Byte) (h : Bool) : (s.returns d h).surface = s.surface := rfl
@[simp] theorem State.returns_txLog (d : Option Byte) (h : Bool) : (s.returns d h).txLog = s.txLog := rfl
@[simp] theorem State.returns_haltReports (d : Option Byte) (h : Bool) : (s.returns d h).haltReports = s.haltReports := rfl
@[simp] theorem State.returns_loadFailures (d : Option Byte) (h : Bool) : (s.returns d h).loadFailures = s.loadFailures := rfl
@[simp] theorem State.returns_terminated (d : Option Byte) (h : Bool) : (s.returns d h).terminated = s.terminated := rfl
@[simp] theorem State.returns_resets (d : Option Byte) (h : Bool) : (s.returns d h).resets = s.resets := rfl
@[simp] theorem State.returns_returned (d : Option Byte) (h : Bool) : (s.returns d h).returned = some ⟨d, h⟩ := rfl
@[simp] theorem State.returns_inbox (d : Option Byte) (h : Bool) : (s.returns d h).inbox = s.inbox := rfl
@[simp] theorem State.returns_cpuScript (d : Option Byte) (h : Bool) : (s.returns d h).cpuScript = s.cpuScript := rfl

/-! `storeByte` -/

@[simp] theorem State.storeByte_setup (a : Nat) (b : Byte) : (s.storeByte a b).setup = s.setup := rfl
@[simp] theorem State.storeByte_config (a : Nat) (b : Byte) : (s.storeByte a b).config = s.config := rfl
@[simp] theorem State.storeByte_ram (a : Nat) (b : Byte) : (s.storeByte a b).ram = Memory.write s.config.ramInit s.ram a b := rfl
@[simp] theorem State.storeByte_pendingInput (a : Nat) (b : Byte) : (s.storeByte a b).pendingInput = s.pendingInput := rfl
@[simp] theorem State.storeByte_haltAddress (a : Nat) (b : Byte) : (s.storeByte a b).haltAddress = s.haltAddress := rfl
@[simp] theorem State.storeByte_grid (a : Nat) (b : Byte) : (s.storeByte a b).grid = s.grid := rfl
@[simp] theorem State.storeByte_cursorX (a : Nat) (b : Byte) : (s.storeByte a b).cursorX = s.cursorX := rfl
@[simp] theorem State.storeByte_cursorY (a : Nat) (b : Byte) : (s.storeByte a b).cursorY = s.cursorY := rfl
@[simp] theorem State.storeByte_updated (a : Nat) (b : Byte) : (s.storeByte a b).updated = s.updated := rfl
@[simp] theorem State.storeByte_cpu (a : Nat) (b : Byte) : (s.storeByte a b).cpu = s.cpu := rfl
@[simp] theorem State.storeByte_running (a : Nat) (b : Byte) : (s.storeByte a b).running = s.running := rfl
@[simp] theorem State.storeByte_watchAddress (a : Nat) (b : Byte) : (s.storeByte a b).watchAddress = s.watchAddress := rfl
@[simp] theorem State.storeByte_surface (a : Nat) (b : Byte) : (s.storeByte a b).surface = s.surface := rfl
@[simp] theorem State.storeByte_txLog (a : Nat) (b : Byte) : (s.storeByte a b).txLog = s.txLog := rfl
@[simp] theorem State.storeByte_haltReports (a : Nat) (b : Byte) : (s.storeByte a b).haltReports = s.haltReports := rfl
@[simp] theorem State.storeByte_loadFailures (a : Nat) (b : Byte) : (s.storeByte a b).loadFailures = s.loadFailures := rfl
@[simp] theorem State.storeByte_terminated (a : Nat) (b : Byte) : (s.storeByte a b).terminated = s.terminated := rfl
@[simp] theorem State.storeByte_resets (a : Nat) (b : Byte) : (s.storeByte a b).resets = s.resets := rfl
@[simp] theorem State.storeByte_returned (a : Nat) (b : Byte) : (s.storeByte a b).returned = s.returned := rfl
@[simp] theorem State.storeByte_inbox (a : Nat) (b : Byte) : (s.storeByte a b).inbox = s.inbox := rfl
@[simp] theorem State.storeByte_cpuScript (a : Nat) (b : Byte) : (s.storeByte a b).cpuScript = s.cpuScript := rfl

/-! `putGlyph` -/

@[simp] theorem State.putGlyph_setup (x y : Nat) (g : Byte) : (s.putGlyph x y g).setup = s.setup := rfl
@[simp] theorem State.putGlyph_config (x y : Nat) (g : Byte) : (s.putGlyph x y g).config = s.config := rfl
@[simp] theorem State.putGlyph_ram (x y : Nat) (g : Byte) : (s.putGlyph x y g).ram = s.ram := rfl
@[simp] theorem State.putGlyph_pendingInput (x y : Nat) (g : Byte) : (s.putGlyph x y g).pendingInput = s.pendingInput := rfl
@[simp] theorem State.putGlyph_haltAddress (x y : Nat) (g : Byte) : (s.putGlyph x y g).haltAddress = s.haltAddress := rfl
@[simp] theorem State.putGlyph_grid (x y : Nat) (g : Byte) : (s.putGlyph x y g).grid = Grid.put s.grid x y (Cell.ofGlyph g) := rfl
@[simp] theorem State.putGlyph_cursorX (x y : Nat) (g : Byte) : (s.putGlyph x y g).cursorX = s.cursorX := rfl
@[simp] theorem State.putGlyph_cursorY (x y : Nat) (g : Byte) : (s.putGlyph x y g).cursorY = s.cursorY := rfl
@[simp] theorem State.putGlyph_updated (x y : Nat) (g : Byte) : (s.putGlyph x y g).updated = s.updated := rfl
@[simp] theorem State.putGlyph_cpu (x y : Nat) (g : Byte) : (s.putGlyph x y g).cpu = s.cpu := rfl
@[simp] theorem State.putGlyph_running (x y : Nat) (g : Byte) : (s.putGlyph x y g).running = s.running := rfl
@[simp] theorem State.putGlyph_watchAddress (x y : Nat) (g : Byte) : (s.putGlyph x y g).watchAddress = s.watchAddress := rfl
@[simp] theorem State.putGlyph_surface (x y : Nat) (g : Byte) : (s.putGlyph x y g).surface = s.surface := rfl
@[simp] theorem State.putGlyph_txLog (x y : Nat) (g : Byte) : (s.putGlyph x y g).txLog = s.txLog := rfl
@[simp] theorem State.putGlyph_haltReports (x y : Nat) (g : Byte) : (s.putGlyph x y g).haltReports = s.haltReports := rfl
@[simp] theorem State.putGlyph_loadFailures (x y : Nat) (g : Byte) : (s.putGlyph x y g).loadFailures = s.loadFailures := rfl
@[simp] theorem State.putGlyph_terminated (x y : Nat) (g : Byte) : (s.putGlyph x y g).terminated = s.terminated := rfl
@[simp] theorem State.putGlyph_resets (x y : Nat) (g : Byte) : (s.putGlyph x y g).resets = s.resets := rfl
@[simp] theorem State.putGlyph_returned (x y : Nat) (g : Byte) : (s.putGlyph x y g).returned = s.returned := rfl
@[simp] theorem State.putGlyph_inbox (x y : Nat) (g : Byte) : (s.putGlyph x y g).inbox = s.inbox := rfl
@[simp] theorem State.putGlyph_cpuScript (x y : Nat) (g : Byte) : (s.putGlyph x y g).cpuScript = s.cpuScript := rfl

/-! `moveCursor` -/

@[simp] theorem State.moveCursor_setup (x y : Nat) : (s.moveCursor x y).setup = s.setup := rfl
@[simp] theorem State.moveCursor_config (x y : Nat) : (s.moveCursor x y).config = s.config := rfl
@[simp] theorem State.moveCursor_ram (x y : Nat) : (s.moveCursor x y).ram = s.ram := rfl
@[simp] theorem State.moveCursor_pendingInput (x y : Nat) : (s.moveCursor x y).pendingInput = s.pendingInput := rfl
@[simp] theorem State.moveCursor_haltAddress (x y : Nat) : (s.moveCursor x y).haltAddress = s.haltAddress := rfl
@[simp] theorem State.moveCursor_grid (x y : Nat) : (s.moveCursor x y).grid = s.grid := rfl
@[simp] theorem State.moveCursor_cursorX (x y : Nat) : (s.moveCursor x y).cursorX = x := rfl
@[simp] theorem State.moveCursor_cursorY (x y : Nat) : (s.moveCursor x y).cursorY = y := rfl
@[simp] theorem State.moveCursor_updated (x y : Nat) : (s.moveCursor x y).updated = s.updated := rfl
@[simp] theorem State.moveCursor_cpu (x y : Nat) : (s.moveCursor x y).cpu = s.cpu := rfl
@[simp] theorem State.moveCursor_running (x y : Nat) : (s.moveCursor x y).running = s.running := rfl
@[simp] theorem State.moveCursor_watchAddress (x y : Nat) : (s.moveCursor x y).watchAddress = s.watchAddress := rfl
@[simp] theorem State.moveCursor_surface (x y : Nat) : (s.moveCursor x y).surface = s.surface := rfl
@[simp] theorem State.moveCursor_txLog (x y : Nat) : (s.moveCursor x y).txLog = s.txLog := rfl
@[simp] theorem State.moveCursor_haltReports (x y : Nat) : (s.moveCursor x y).haltReports = s.haltReports := rfl
@[simp] theorem State.moveCursor_loadFailures (x y : Nat) : (s.moveCursor x y).loadFailures = s.loadFailures := rfl
@[simp] theorem State.moveCursor_terminated (x y : Nat) : (s.moveCursor x y).terminated = s.terminated := rfl
@[simp] theorem State.moveCursor_resets (x y : Nat) : (s.moveCursor x y).resets = s.resets := rfl
@[simp] theorem State.moveCursor_returned (x y : Nat) : (s.moveCursor x y).returned = s.returned := rfl
@[simp] theorem State.moveCursor_inbox (x y : Nat) : (s.moveCursor x y).inbox = s.inbox := rfl
@[simp] theorem State.moveCursor_cpuScript (x y : Nat) : (s.moveCursor x y).cpuScript = s.cpuScript := rfl

/-! `scroll` -/

@[simp] theorem State.scroll_setup : (s.scroll).setup = s.setup := rfl
@[simp] theorem State.scroll_config : (s.scroll).config = s.config := rfl
@[simp] theorem State.scroll_ram : (s.scroll).ram = s.ram := rfl
@[simp] theorem State.scroll_pendingInput : (s.scroll).pendingInput = s.pendingInput := rfl
@[simp] theorem State.scroll_haltAddress : (s.scroll).haltAddress = s.haltAddress := rfl
@[simp] theorem State.scroll_grid : (s.scroll).grid = Grid.scrolled s.config.width s.grid := rfl
@[simp] theorem State.scroll_cursorX : (s.scroll).cursorX = s.cursorX := rfl
@[simp] theorem State.scroll_cursorY : (s.scroll).cursorY = s.cursorY := rfl
@[simp] theorem State.scroll_updated : (s.scroll).updated = s.updated := rfl
@[simp] theorem State.scroll_cpu : (s.scroll).cpu = s.cpu := rfl
@[simp] theorem State.scroll_running : (s.scroll).running = s.running := rfl
@[simp] theorem State.scroll_watchAddress : (s.scroll).watchAddress = s.watchAddress := rfl
@[simp] theorem State.scroll_surface : (s.scroll).surface = s.surface := rfl
@[simp] theorem State.scroll_txLog : (s.scroll).txLog = s.txLog := rfl
@[simp] theorem State.scroll_haltReports : (s.scroll).haltReports = s.haltReports := rfl
@[simp] theorem State.scroll_loadFailures : (s.scroll).loadFailures = s.loadFailures := rfl
@[simp] theorem State.scroll_terminated : (s.scroll).terminated = s.terminated := rfl
@[simp] theorem State.scroll_resets : (s.scroll).resets = s.resets := rfl
@[simp] theorem State.scroll_returned : (s.scroll).returned = s.returned := rfl
@[simp] theorem State.scroll_inbox : (s.scroll).inbox = s.inbox := rfl
@[simp] theorem State.scroll_cpuScript : (s.scroll).cpuScript = s.cpuScript := rfl

/-! `resume` -/

@[simp] theorem State.resume_setup : (s.resume).setup = s.setup := rfl
@[simp] theorem State.resume_config : (s.resume).config = s.config := rfl
@[simp] theorem State.resume_ram : (s.resume).ram = s.ram := rfl
@[simp] theorem State.resume_pendingInput : (s.resume).pendingInput = s.pendingInput := rfl
@[simp] theorem State.resume_haltAddress : (s.resume).haltAddress = s.haltAddress := rfl
@[simp] theorem State.resume_grid : (s.resume).grid = s.grid := rfl
@[simp] theorem State.resume_cursorX : (s.resume).cursorX = s.cursorX := rfl
@[simp] theorem State.resume_cursorY : (s.resume).cursorY = s.cursorY := rfl
@[simp] theorem State.resume_updated : (s.resume).updated = s.updated := rfl
@[simp] theorem State.resume_cpu : (s.resume).cpu = s.cpu := rfl
@[simp] theorem State.resume_running : (s.resume).running = true := rfl
@[simp] theorem State.resume_watchAddress : (s.resume).watchAddress = s.watchAddress := rfl
@[simp] theorem State.resume_surface : (s.resume).surface = s.surface := rfl
@[simp] theorem State.resume_txLog : (s.resume).txLog = s.txLog := rfl
@[simp] theorem State.resume_haltReports : (s.resume).haltReports = s.haltReports := rfl
@[simp] theorem State.resume_loadFailures : (s.resume).loadFailures = s.loadFailures := rfl
@[simp] theorem State.resume_terminated : (s.resume).terminated = s.terminated := rfl
@[simp] theorem State.resume_resets : (s.resume).resets = s.resets := rfl
@[simp] theorem State.resume_returned : (s.resume).returned = s.returned := rfl
@[simp] theorem State.resume_inbox : (s.resume).inbox = s.inbox := rfl
@[simp] theorem State.resume_cpuScript : (s.resume).cpuScript = s.cpuScript := rfl

/-! `stopSilently` -/

@[simp] theorem State.stopSilently_setup : (s.stopSilently).setup = s.setup := rfl
@[simp] theorem State.stopSilently_config : (s.stopSilently).config = s.config := rfl
@[simp] theorem State.stopSilently_ram : (s.stopSilently).ram = s.ram := rfl
@[simp] theorem State.stopSilently_pendingInput : (s.stopSilently).pendingInput = s.pendingInput := rfl
@[simp] theorem State.stopSilently_haltAddress : (s.stopSilently).haltAddress = s.haltAddress := rfl
@[simp] theorem State.stopSilently_grid : (s.stopSilently).grid = s.grid := rfl
@[simp] theorem State.stopSilently_cursorX : (s.stopSilently).cursorX = s.cursorX := rfl
@[simp] theorem State.stopSilently_cursorY : (s.stopSilently).cursorY = s.cursorY := rfl
@[simp] theorem State.stopSilently_updated : (s.stopSilently).updated = s.updated := rfl
@[simp] theorem State.stopSilently_cpu : (s.stopSilently).cpu = s.cpu := rfl
@[simp] theorem State.stopSilently_running : (s.stopSilently).running = false := rfl
@[simp] theorem State.stopSilently_watchAddress : (s.stopSilently).watchAddress = s.watchAddress := rfl
@[simp] theorem State.stopSilently_surface : (s.stopSilently).surface = s.surface := rfl
@[simp] theorem State.stopSilently_txLog : (s.stopSilently).txLog = s.txLog := rfl
@[simp] theorem State.stopSilently_haltReports : (s.stopSilently).haltReports = s.haltReports := rfl
@[simp] theorem State.stopSilently_loadFailures : (s.stopSilently).loadFailures = s.loadFailures := rfl
@[simp] theorem State.stopSilently_terminated : (s.stopSilently).terminated = s.terminated := rfl
@[simp] theorem State.stopSilently_resets : (s.stopSilently).resets = s.resets := rfl
@[simp] theorem State.stopSilently_returned : (s.stopSilently).returned = s.returned := rfl
@[simp] theorem State.stopSilently_inbox : (s.stopSilently).inbox = s.inbox := rfl
@[simp] theorem State.stopSilently_cpuScript : (s.stopSilently).cpuScript = s.cpuScript := rfl

/-! `emit` -/

@[simp] theorem State.emit_setup (v : Byte) : (s.emit v).setup = s.setup := rfl
@[simp] theorem State.emit_config (v : Byte) : (s.emit v).config = s.config := rfl
@[simp] theorem State.emit_ram (v : Byte) : (s.emit v).ram = s.ram := rfl
@[simp] theorem State.emit_pendingInput (v : Byte) : (s.emit v).pendingInput = s.pendingInput := rfl
@[simp] theorem State.emit_haltAddress (v : Byte) : (s.emit v).haltAddress = s.haltAddress := rfl
@[simp] theorem State.emit_grid (v : Byte) : (s.emit v).grid = s.grid := rfl
@[simp] theorem State.emit_cursorX (v : Byte) : (s.emit v).cursorX = s.cursorX := rfl
@[simp] theorem State.emit_cursorY (v : Byte) : (s.emit v).cursorY = s.cursorY := rfl
@[simp] theorem State.emit_updated (v : Byte) : (s.emit v).updated = s.updated := rfl
@[simp] theorem State.emit_cpu (v : Byte) : (s.emit v).cpu = s.cpu := rfl
@[simp] theorem State.emit_running (v : Byte) : (s.emit v).running = s.running := rfl
@[simp] theorem State.emit_watchAddress (v : Byte) : (s.emit v).watchAddress = s.watchAddress := rfl
@[simp] theorem State.emit_surface (v : Byte) : (s.emit v).surface = s.surface := rfl
@[simp] theorem State.emit_txLog (v : Byte) : (s.emit v).txLog = s.txLog ++ [v] := rfl
@[simp] theorem State.emit_haltReports (v : Byte) : (s.emit v).haltReports = s.haltReports := rfl
@[simp] theorem State.emit_loadFailures (v : Byte) : (s.emit v).loadFailures = s.loadFailures := rfl
@[simp] theorem State.emit_terminated (v : Byte) : (s.emit v).terminated = s.terminated := rfl
@[simp] theorem State.emit_resets (v : Byte) : (s.emit v).resets = s.resets := rfl
@[simp] theorem State.emit_returned (v : Byte) : (s.emit v).returned = s.returned := rfl
@[simp] theorem State.emit_inbox (v : Byte) : (s.emit v).inbox = s.inbox := rfl
@[simp] theorem State.emit_cpuScript (v : Byte) : (s.emit v).cpuScript = s.cpuScript := rfl

/-! `setPending` -/

@[simp] theorem State.setPending_setup (c : Byte) : (s.setPending c).setup = s.setup := rfl
@[simp] theorem State.setPending_config (c : Byte) : (s.setPending c).config = s.config := rfl
@[simp] theorem State.setPending_ram (c : Byte) : (s.setPending c).ram = s.ram := rfl
@[simp] theorem State.setPending_pendingInput (c : Byte) : (s.setPending c).pendingInput = c := rfl
@[simp] theorem State.setPending_haltAddress (c : Byte) : (s.setPending c).haltAddress = s.haltAddress := rfl
@[simp] theorem State.setPending_grid (c : Byte) : (s.setPending c).grid = s.grid := rfl
@[simp] theorem State.setPending_cursorX (c : Byte) : (s.setPending c).cursorX = s.cursorX := rfl
@[simp] theorem State.setPending_cursorY (c : Byte) : (s.setPending c).cursorY = s.cursorY := rfl
@[simp] theorem State.setPending_updated (c : Byte) : (s.setPending c).updated = s.updated := rfl
@[simp] theorem State.setPending_cpu (c : Byte) : (s.setPending c).cpu = s.cpu := rfl
@[simp] theorem State.setPending_running (c : Byte) : (s.setPending c).running = s.running := rfl
@[simp] theorem State.setPending_watchAddress (c : Byte) : (s.setPending c).watchAddress = s.watchAddress := rfl
@[simp] theorem State.setPending_surface (c : Byte) : (s.setPending c).surface = s.surface := rfl
@[simp] theorem State.setPending_txLog (c : Byte) : (s.setPending c).txLog = s.txLog := rfl
@[simp] theorem State.setPending_haltReports (c : Byte) : (s.setPending c).haltReports = s.haltReports := rfl
@[simp] theorem State.setPending_loadFailures (c : Byte) : (s.setPending c).loadFailures = s.loadFailures := rfl
@[simp] theorem State.setPending_terminated (c : Byte) : (s.setPending c).terminated = s.terminated := rfl
@[simp] theorem State.setPending_resets (c : Byte) : (s.setPending c).resets = s.resets := rfl
@[simp] theorem State.setPending_returned (c : Byte) : (s.setPending c).returned = s.returned := rfl
@[simp] theorem State.setPending_inbox (c : Byte) : (s.setPending c).inbox = s.inbox := rfl
@[simp] theorem State.setPending_cpuScript (c : Byte) : (s.setPending c).cpuScript = s.cpuScript := rfl

/-! `setHaltAddress` -/

@[simp] theorem State.setHaltAddress_setup (h : Option Address) : (s.setHaltAddress h).setup = s.setup := rfl
@[simp] theorem State.setHaltAddress_config (h : Option Address) : (s.setHaltAddress h).config = s.config := rfl
@[simp] theorem State.setHaltAddress_ram (h : Option Address) : (s.setHaltAddress h).ram = s.ram := rfl
@[simp] theorem State.setHaltAddress_pendingInput (h : Option Address) : (s.setHaltAddress h).pendingInput = s.pendingInput := rfl
@[simp] theorem State.setHaltAddress_haltAddress (h : Option Address) : (s.setHaltAddress h).haltAddress = h := rfl
@[simp] theorem State.setHaltAddress_grid (h : Option Address) : (s.setHaltAddress h).grid = s.grid := rfl
@[simp] theorem State.setHaltAddress_cursorX (h : Option Address) : (s.setHaltAddress h).cursorX = s.cursorX := rfl
@[simp] theorem State.setHaltAddress_cursorY (h : Option Address) : (s.setHaltAddress h).cursorY = s.cursorY := rfl
@[simp] theorem State.setHaltAddress_updated (h : Option Address) : (s.setHaltAddress h).updated = s.updated := rfl
@[simp] theorem State.setHaltAddress_cpu (h : Option Address) : (s.setHaltAddress h).cpu = s.cpu := rfl
@[simp] theorem State.setHaltAddress_running (h : Option Address) : (s.setHaltAddress h).running = s.running := rfl
@[simp] theorem State.setHaltAddress_watchAddress (h : Option Address) : (s.setHaltAddress h).watchAddress = s.watchAddress := rfl
@[simp] theorem State.setHaltAddress_surface (h : Option Address) : (s.setHaltAddress h).surface = s.surface := rfl
@[simp] theorem State.setHaltAddress_txLog (h : Option Address) : (s.setHaltAddress h).txLog = s.txLog := rfl
@[simp] theorem State.setHaltAddress_haltReports (h : Option Address) : (s.setHaltAddress h).haltReports = s.haltReports := rfl
@[simp] theorem State.setHaltAddress_loadFailures (h : Option Address) : (s.setHaltAddress h).loadFailures = s.loadFailures := rfl
@[simp] theorem State.setHaltAddress_terminated (h : Option Address) : (s.setHaltAddress h).terminated = s.terminated := rfl
@[simp] theorem State.setHaltAddress_resets (h : Option Address) : (s.setHaltAddress h).resets = s.resets := rfl
@[simp] theorem State.setHaltAddress_returned (h : Option Address) : (s.setHaltAddress h).returned = s.returned := rfl
@[simp] theorem State.setHaltAddress_inbox (h : Option Address) : (s.setHaltAddress h).inbox = s.inbox := rfl
@[simp] theorem State.setHaltAddress_cpuScript (h : Option Address) : (s.setHaltAddress h).cpuScript = s.cpuScript := rfl

/-! `setPc` -/

@[simp] theorem State.setPc_setup (a : Address) : (s.setPc a).setup = s.setup := rfl
@[simp] theorem State.setPc_config (a : Address) : (s.setPc a).config = s.config := rfl
@[simp] theorem State.setPc_ram (a : Address) : (s.setPc a).ram = s.ram := rfl
@[simp] theorem State.setPc_pendingInput (a : Address) : (s.setPc a).pendingInput = s.pendingInput := rfl
@[simp] theorem State.setPc_haltAddress (a : Address) : (s.setPc a).haltAddress = s.haltAddress := rfl
@[simp] theorem State.setPc_grid (a : Address) : (s.setPc a).grid = s.grid := rfl
@[simp] theorem State.setPc_cursorX (a : Address) : (s.setPc a).cursorX = s.cursorX := rfl
@[simp] theorem State.setPc_cursorY (a : Address) : (s.setPc a).cursorY = s.cursorY := rfl
@[simp] theorem State.setPc_updated (a : Address) : (s.setPc a).updated = s.updated := rfl
@[simp] theorem State.setPc_cpu (a : Address) : (s.setPc a).cpu = { s.cpu with pc := a } := rfl
@[simp] theorem State.setPc_running (a : Address) : (s.setPc a).running = s.running := rfl
@[simp] theorem State.setPc_watchAddress (a : Address) : (s.setPc a).watchAddress = s.watchAddress := rfl
@[simp] theorem State.setPc_surface (a : Address) : (s.setPc a).surface = s.surface := rfl
@[simp] theorem State.setPc_txLog (a : Address) : (s.setPc a).txLog = s.txLog := rfl
@[simp] theorem State.setPc_haltReports (a : Address) : (s.setPc a).haltReports = s.haltReports := rfl
@[simp] theorem State.setPc_loadFailures (a : Address) : (s.setPc a).loadFailures = s.loadFailures := rfl
@[simp] theorem State.setPc_terminated (a : Address) : (s.setPc a).terminated = s.terminated := rfl
@[simp] theorem State.setPc_resets (a : Address) : (s.setPc a).resets = s.resets := rfl
@[simp] theorem State.setPc_returned (a : Address) : (s.setPc a).returned = s.returned := rfl
@[simp] theorem State.setPc_inbox (a : Address) : (s.setPc a).inbox = s.inbox := rfl
@[simp] theorem State.setPc_cpuScript (a : Address) : (s.setPc a).cpuScript = s.cpuScript := rfl

/-! `reportLoadFailure` -/

@[simp] theorem State.reportLoadFailure_setup : (s.reportLoadFailure).setup = s.setup := rfl
@[simp] theorem State.reportLoadFailure_config : (s.reportLoadFailure).config = s.config := rfl
@[simp] theorem State.reportLoadFailure_ram : (s.reportLoadFailure).ram = s.ram := rfl
@[simp] theorem State.reportLoadFailure_pendingInput : (s.reportLoadFailure).pendingInput = s.pendingInput := rfl
@[simp] theorem State.reportLoadFailure_haltAddress : (s.reportLoadFailure).haltAddress = s.haltAddress := rfl
@[simp] theorem State.reportLoadFailure_grid : (s.reportLoadFailure).grid = s.grid := rfl
@[simp] theorem State.reportLoadFailure_cursorX : (s.reportLoadFailure).cursorX = s.cursorX := rfl
@[simp] theorem State.reportLoadFailure_cursorY : (s.reportLoadFailure).cursorY = s.cursorY := rfl
@[simp] theorem State.reportLoadFailure_updated : (s.reportLoadFailure).updated = s.updated := rfl
@[simp] theorem State.reportLoadFailure_cpu : (s.reportLoadFailure).cpu = s.cpu := rfl
@[simp] theorem State.reportLoadFailure_running : (s.reportLoadFailure).running = s.running := rfl
@[simp] theorem State.reportLoadFailure_watchAddress : (s.reportLoadFailure).watchAddress = s.watchAddress := rfl
@[simp] theorem State.reportLoadFailure_surface : (s.reportLoadFailure).surface = s.surface := rfl
@[simp] theorem State.reportLoadFailure_txLog : (s.reportLoadFailure).txLog = s.txLog := rfl
@[simp] theorem State.reportLoadFailure_haltReports : (s.reportLoadFailure).haltReports = s.haltReports := rfl
@[simp] theorem State.reportLoadFailure_loadFailures : (s.reportLoadFailure).loadFailures = s.loadFailures + 1 := rfl
@[simp] theorem State.reportLoadFailure_terminated : (s.reportLoadFailure).terminated = s.terminated := rfl
@[simp] theorem State.reportLoadFailure_resets : (s.reportLoadFailure).resets = s.resets := rfl
@[simp] theorem State.reportLoadFailure_returned : (s.reportLoadFailure).returned = s.returned := rfl
@[simp] theorem State.reportLoadFailure_inbox : (s.reportLoadFailure).inbox = s.inbox := rfl
@[simp] theorem State.reportLoadFailure_cpuScript : (s.reportLoadFailure).cpuScript = s.cpuScript := rfl

/-! `dropScript` -/

@[simp] theorem State.dropScript_setup : (s.dropScript).setup = s.setup := rfl
@[simp] theorem State.dropScript_config : (s.dropScript).config = s.config := rfl
@[simp] theorem State.dropScript_ram : (s.dropScript).ram = s.ram := rfl
@[simp] theorem State.dropScript_pendingInput : (s.dropScript).pendingInput = s.pendingInput := rfl
@[simp] theorem State.dropScript_haltAddress : (s.dropScript).haltAddress = s.haltAddress := rfl
@[simp] theorem State.dropScript_grid : (s.dropScript).grid = s.grid := rfl
@[simp] theorem State.dropScript_cursorX : (s.dropScript).cursorX = s.cursorX := rfl
@[simp] theorem State.dropScript_cursorY : (s.dropScript).cursorY = s.cursorY := rfl
@[simp] theorem State.dropScript_updated : (s.dropScript).updated = s.updated := rfl
@[simp] theorem State.dropScript_cpu : (s.dropScript).cpu = s.cpu := rfl
@[simp] theorem State.dropScript_running : (s.dropScript).running = s.running := rfl
@[simp] theorem State.dropScript_watchAddress : (s.dropScript).watchAddress = s.watchAddress := rfl
@[simp] theorem State.dropScript_surface : (s.dropScript).surface = s.surface := rfl
@[simp] theorem State.dropScript_txLog : (s.dropScript).txLog = s.txLog := rfl
@[simp] theorem State.dropScript_haltReports : (s.dropScript).haltReports = s.haltReports := rfl
@[simp] theorem State.dropScript_loadFailures : (s.dropScript).loadFailures = s.loadFailures := rfl
@[simp] theorem State.dropScript_terminated : (s.dropScript).terminated = s.terminated := rfl
@[simp] theorem State.dropScript_resets : (s.dropScript).resets = s.resets := rfl
@[simp] theorem State.dropScript_returned : (s.dropScript).returned = s.returned := rfl
@[simp] theorem State.dropScript_inbox : (s.dropScript).inbox = s.inbox := rfl
@[simp] theorem State.dropScript_cpuScript : (s.dropScript).cpuScript = s.cpuScript.tail := rfl

/-! What `requestHalt` leaves alone. -/

@[simp] theorem State.requestHalt_setup : (s.requestHalt).setup = s.setup := by
  unfold State.requestHalt; split <;> rfl
@[simp] theorem State.requestHalt_config : (s.requestHalt).config = s.config := by
  unfold State.requestHalt; split <;> rfl
@[simp] theorem State.requestHalt_ram : (s.requestHalt).ram = s.ram := by
  unfold State.requestHalt; split <;> rfl
@[simp] theorem State.requestHalt_pendingInput : (s.requestHalt).pendingInput = s.pendingInput := by
  unfold State.requestHalt; split <;> rfl
@[simp] theorem State.requestHalt_haltAddress : (s.requestHalt).haltAddress = s.haltAddress := by
  unfold State.requestHalt; split <;> rfl
@[simp] theorem State.requestHalt_grid : (s.requestHalt).grid = s.grid := by
  unfold State.requestHalt; split <;> rfl
@[simp] theorem State.requestHalt_cursorX : (s.requestHalt).cursorX = s.cursorX := by
  unfold State.requestHalt; split <;> rfl
@[simp] theorem State.requestHalt_cursorY : (s.requestHalt).cursorY = s.cursorY := by
  unfold State.requestHalt; split <;> rfl
@[simp] theorem State.requestHalt_updated : (s.requestHalt).updated = s.updated := by
  unfold State.requestHalt; split <;> rfl
@[simp] theorem State.requestHalt_cpu : (s.requestHalt).cpu = s.cpu := by
  unfold State.requestHalt; split <;> rfl
@[simp] theorem State.requestHalt_watchAddress : (s.requestHalt).watchAddress = s.watchAddress := by
  unfold State.requestHalt; split <;> rfl
@[simp] theorem State.requestHalt_surface : (s.requestHalt).surface = s.surface := by
  unfold State.requestHalt; split <;> rfl
@[simp] theorem State.requestHalt_txLog : (s.requestHalt).txLog = s.txLog := by
  unfold State.requestHalt; split <;> rfl
@[simp] theorem State.requestHalt_loadFailures : (s.requestHalt).loadFailures = s.loadFailures := by
  unfold State.requestHalt; split <;> rfl
@[simp] theorem State.requestHalt_terminated : (s.requestHalt).terminated = s.terminated := by
  unfold State.requestHalt; split <;> rfl
@[simp] theorem State.requestHalt_resets : (s.requestHalt).resets = s.resets := by
  unfold State.requestHalt; split <;> rfl
@[simp] theorem State.requestHalt_returned : (s.requestHalt).returned = s.returned := by
  unfold State.requestHalt; split <;> rfl
@[simp] theorem State.requestHalt_inbox : (s.requestHalt).inbox = s.inbox := by
  unfold State.requestHalt; split <;> rfl
@[simp] theorem State.requestHalt_cpuScript : (s.requestHalt).cpuScript = s.cpuScript := by
  unfold State.requestHalt; split <;> rfl

/-- After `RequestHalt()` the machine is HALTED (R221). -/
@[simp] theorem State.requestHalt_running : s.requestHalt.running = false := by
  unfold State.requestHalt; split <;> simp_all

/-- One report, only on a transition from RUNNING (R221). -/
theorem State.requestHalt_haltReports :
    s.requestHalt.haltReports = if s.running then s.haltReports + 1 else s.haltReports := by
  unfold State.requestHalt; split <;> rfl

/-- A redundant halt request does nothing (R225). -/
@[simp] theorem State.requestHalt_idem : s.requestHalt.requestHalt = s.requestHalt := by
  cases h : s.running <;> simp [State.requestHalt, h]

/-! What `respond` leaves alone. -/

@[simp] theorem State.respond_setup (h : Bool) : (s.respond h).setup = s.setup := by
  unfold State.respond; split <;> simp
@[simp] theorem State.respond_config (h : Bool) : (s.respond h).config = s.config := by
  unfold State.respond; split <;> simp
@[simp] theorem State.respond_ram (h : Bool) : (s.respond h).ram = s.ram := by
  unfold State.respond; split <;> simp
@[simp] theorem State.respond_pendingInput (h : Bool) : (s.respond h).pendingInput = s.pendingInput := by
  unfold State.respond; split <;> simp
@[simp] theorem State.respond_haltAddress (h : Bool) : (s.respond h).haltAddress = s.haltAddress := by
  unfold State.respond; split <;> simp
@[simp] theorem State.respond_grid (h : Bool) : (s.respond h).grid = s.grid := by
  unfold State.respond; split <;> simp
@[simp] theorem State.respond_cursorX (h : Bool) : (s.respond h).cursorX = s.cursorX := by
  unfold State.respond; split <;> simp
@[simp] theorem State.respond_cursorY (h : Bool) : (s.respond h).cursorY = s.cursorY := by
  unfold State.respond; split <;> simp
@[simp] theorem State.respond_updated (h : Bool) : (s.respond h).updated = s.updated := by
  unfold State.respond; split <;> simp
@[simp] theorem State.respond_cpu (h : Bool) : (s.respond h).cpu = s.cpu := by
  unfold State.respond; split <;> simp
@[simp] theorem State.respond_watchAddress (h : Bool) : (s.respond h).watchAddress = s.watchAddress := by
  unfold State.respond; split <;> simp
@[simp] theorem State.respond_surface (h : Bool) : (s.respond h).surface = s.surface := by
  unfold State.respond; split <;> simp
@[simp] theorem State.respond_txLog (h : Bool) : (s.respond h).txLog = s.txLog := by
  unfold State.respond; split <;> simp
@[simp] theorem State.respond_loadFailures (h : Bool) : (s.respond h).loadFailures = s.loadFailures := by
  unfold State.respond; split <;> simp
@[simp] theorem State.respond_terminated (h : Bool) : (s.respond h).terminated = s.terminated := by
  unfold State.respond; split <;> simp
@[simp] theorem State.respond_resets (h : Bool) : (s.respond h).resets = s.resets := by
  unfold State.respond; split <;> simp
@[simp] theorem State.respond_returned (h : Bool) : (s.respond h).returned = s.returned := by
  unfold State.respond; split <;> simp
@[simp] theorem State.respond_inbox (h : Bool) : (s.respond h).inbox = s.inbox := by
  unfold State.respond; split <;> simp
@[simp] theorem State.respond_cpuScript (h : Bool) : (s.respond h).cpuScript = s.cpuScript := by
  unfold State.respond; split <;> simp

/-- `halt_req = 1` ends in HALTED, `halt_req = 0` changes nothing (R144). -/
theorem State.respond_running (h : Bool) : (s.respond h).running = (s.running && !h) := by
  cases h <;> simp [State.respond]

theorem State.respond_haltReports (h : Bool) :
    (s.respond h).haltReports = if s.running && h then s.haltReports + 1 else s.haltReports := by
  cases h <;> simp [State.respond, State.requestHalt_haltReports]

@[simp] theorem State.respond_false : s.respond false = s := rfl

/-! What `settle` leaves alone. -/

@[simp] theorem State.settle_setup (d : Option Byte) (h : Bool) : (s.settle d h).setup = s.setup := by
  simp [State.settle]
@[simp] theorem State.settle_config (d : Option Byte) (h : Bool) : (s.settle d h).config = s.config := by
  simp [State.settle]
@[simp] theorem State.settle_ram (d : Option Byte) (h : Bool) : (s.settle d h).ram = s.ram := by
  simp [State.settle]
@[simp] theorem State.settle_pendingInput (d : Option Byte) (h : Bool) : (s.settle d h).pendingInput = s.pendingInput := by
  simp [State.settle]
@[simp] theorem State.settle_haltAddress (d : Option Byte) (h : Bool) : (s.settle d h).haltAddress = s.haltAddress := by
  simp [State.settle]
@[simp] theorem State.settle_grid (d : Option Byte) (h : Bool) : (s.settle d h).grid = s.grid := by
  simp [State.settle]
@[simp] theorem State.settle_cursorX (d : Option Byte) (h : Bool) : (s.settle d h).cursorX = s.cursorX := by
  simp [State.settle]
@[simp] theorem State.settle_cursorY (d : Option Byte) (h : Bool) : (s.settle d h).cursorY = s.cursorY := by
  simp [State.settle]
@[simp] theorem State.settle_updated (d : Option Byte) (h : Bool) : (s.settle d h).updated = s.updated := by
  simp [State.settle]
@[simp] theorem State.settle_cpu (d : Option Byte) (h : Bool) : (s.settle d h).cpu = s.cpu := by
  simp [State.settle]
@[simp] theorem State.settle_watchAddress (d : Option Byte) (h : Bool) : (s.settle d h).watchAddress = s.watchAddress := by
  simp [State.settle]
@[simp] theorem State.settle_surface (d : Option Byte) (h : Bool) : (s.settle d h).surface = s.surface := by
  simp [State.settle]
@[simp] theorem State.settle_txLog (d : Option Byte) (h : Bool) : (s.settle d h).txLog = s.txLog := by
  simp [State.settle]
@[simp] theorem State.settle_loadFailures (d : Option Byte) (h : Bool) : (s.settle d h).loadFailures = s.loadFailures := by
  simp [State.settle]
@[simp] theorem State.settle_terminated (d : Option Byte) (h : Bool) : (s.settle d h).terminated = s.terminated := by
  simp [State.settle]
@[simp] theorem State.settle_resets (d : Option Byte) (h : Bool) : (s.settle d h).resets = s.resets := by
  simp [State.settle]
@[simp] theorem State.settle_inbox (d : Option Byte) (h : Bool) : (s.settle d h).inbox = s.inbox := by
  simp [State.settle]
@[simp] theorem State.settle_cpuScript (d : Option Byte) (h : Bool) : (s.settle d h).cpuScript = s.cpuScript := by
  simp [State.settle]

@[simp] theorem State.settle_returned (d : Option Byte) (h : Bool) : (s.settle d h).returned = some ⟨d, h⟩ := by
  simp [State.settle]

theorem State.settle_running (d : Option Byte) (h : Bool) : (s.settle d h).running = (s.running && !h) := by
  simp [State.settle, State.respond_running]

theorem State.settle_haltReports (d : Option Byte) (h : Bool) :
    (s.settle d h).haltReports = if s.running && h then s.haltReports + 1 else s.haltReports := by
  simp [State.settle, State.respond_haltReports]

/-! What `advance` leaves alone. -/

@[simp] theorem State.advance_setup (v : Byte) : (s.advance v).setup = s.setup := by
  simp only [State.advance]; split; · simp
  · split <;> simp
@[simp] theorem State.advance_config (v : Byte) : (s.advance v).config = s.config := by
  simp only [State.advance]; split; · simp
  · split <;> simp
@[simp] theorem State.advance_ram (v : Byte) : (s.advance v).ram = s.ram := by
  simp only [State.advance]; split; · simp
  · split <;> simp
@[simp] theorem State.advance_pendingInput (v : Byte) : (s.advance v).pendingInput = s.pendingInput := by
  simp only [State.advance]; split; · simp
  · split <;> simp
@[simp] theorem State.advance_haltAddress (v : Byte) : (s.advance v).haltAddress = s.haltAddress := by
  simp only [State.advance]; split; · simp
  · split <;> simp
@[simp] theorem State.advance_updated (v : Byte) : (s.advance v).updated = s.updated := by
  simp only [State.advance]; split; · simp
  · split <;> simp
@[simp] theorem State.advance_cpu (v : Byte) : (s.advance v).cpu = s.cpu := by
  simp only [State.advance]; split; · simp
  · split <;> simp
@[simp] theorem State.advance_running (v : Byte) : (s.advance v).running = s.running := by
  simp only [State.advance]; split; · simp
  · split <;> simp
@[simp] theorem State.advance_watchAddress (v : Byte) : (s.advance v).watchAddress = s.watchAddress := by
  simp only [State.advance]; split; · simp
  · split <;> simp
@[simp] theorem State.advance_surface (v : Byte) : (s.advance v).surface = s.surface := by
  simp only [State.advance]; split; · simp
  · split <;> simp
@[simp] theorem State.advance_txLog (v : Byte) : (s.advance v).txLog = s.txLog := by
  simp only [State.advance]; split; · simp
  · split <;> simp
@[simp] theorem State.advance_haltReports (v : Byte) : (s.advance v).haltReports = s.haltReports := by
  simp only [State.advance]; split; · simp
  · split <;> simp
@[simp] theorem State.advance_loadFailures (v : Byte) : (s.advance v).loadFailures = s.loadFailures := by
  simp only [State.advance]; split; · simp
  · split <;> simp
@[simp] theorem State.advance_terminated (v : Byte) : (s.advance v).terminated = s.terminated := by
  simp only [State.advance]; split; · simp
  · split <;> simp
@[simp] theorem State.advance_resets (v : Byte) : (s.advance v).resets = s.resets := by
  simp only [State.advance]; split; · simp
  · split <;> simp
@[simp] theorem State.advance_returned (v : Byte) : (s.advance v).returned = s.returned := by
  simp only [State.advance]; split; · simp
  · split <;> simp
@[simp] theorem State.advance_inbox (v : Byte) : (s.advance v).inbox = s.inbox := by
  simp only [State.advance]; split; · simp
  · split <;> simp
@[simp] theorem State.advance_cpuScript (v : Byte) : (s.advance v).cpuScript = s.cpuScript := by
  simp only [State.advance]; split; · simp
  · split <;> simp

/-! What `scrollIfBelow` leaves alone. -/

@[simp] theorem State.scrollIfBelow_setup : (s.scrollIfBelow).setup = s.setup := by
  unfold State.scrollIfBelow; split <;> simp
@[simp] theorem State.scrollIfBelow_config : (s.scrollIfBelow).config = s.config := by
  unfold State.scrollIfBelow; split <;> simp
@[simp] theorem State.scrollIfBelow_ram : (s.scrollIfBelow).ram = s.ram := by
  unfold State.scrollIfBelow; split <;> simp
@[simp] theorem State.scrollIfBelow_pendingInput : (s.scrollIfBelow).pendingInput = s.pendingInput := by
  unfold State.scrollIfBelow; split <;> simp
@[simp] theorem State.scrollIfBelow_haltAddress : (s.scrollIfBelow).haltAddress = s.haltAddress := by
  unfold State.scrollIfBelow; split <;> simp
@[simp] theorem State.scrollIfBelow_updated : (s.scrollIfBelow).updated = s.updated := by
  unfold State.scrollIfBelow; split <;> simp
@[simp] theorem State.scrollIfBelow_cpu : (s.scrollIfBelow).cpu = s.cpu := by
  unfold State.scrollIfBelow; split <;> simp
@[simp] theorem State.scrollIfBelow_running : (s.scrollIfBelow).running = s.running := by
  unfold State.scrollIfBelow; split <;> simp
@[simp] theorem State.scrollIfBelow_watchAddress : (s.scrollIfBelow).watchAddress = s.watchAddress := by
  unfold State.scrollIfBelow; split <;> simp
@[simp] theorem State.scrollIfBelow_surface : (s.scrollIfBelow).surface = s.surface := by
  unfold State.scrollIfBelow; split <;> simp
@[simp] theorem State.scrollIfBelow_txLog : (s.scrollIfBelow).txLog = s.txLog := by
  unfold State.scrollIfBelow; split <;> simp
@[simp] theorem State.scrollIfBelow_haltReports : (s.scrollIfBelow).haltReports = s.haltReports := by
  unfold State.scrollIfBelow; split <;> simp
@[simp] theorem State.scrollIfBelow_loadFailures : (s.scrollIfBelow).loadFailures = s.loadFailures := by
  unfold State.scrollIfBelow; split <;> simp
@[simp] theorem State.scrollIfBelow_terminated : (s.scrollIfBelow).terminated = s.terminated := by
  unfold State.scrollIfBelow; split <;> simp
@[simp] theorem State.scrollIfBelow_resets : (s.scrollIfBelow).resets = s.resets := by
  unfold State.scrollIfBelow; split <;> simp
@[simp] theorem State.scrollIfBelow_returned : (s.scrollIfBelow).returned = s.returned := by
  unfold State.scrollIfBelow; split <;> simp
@[simp] theorem State.scrollIfBelow_inbox : (s.scrollIfBelow).inbox = s.inbox := by
  unfold State.scrollIfBelow; split <;> simp
@[simp] theorem State.scrollIfBelow_cpuScript : (s.scrollIfBelow).cpuScript = s.cpuScript := by
  unfold State.scrollIfBelow; split <;> simp

/-! What `putChar` leaves alone. -/

@[simp] theorem State.putChar_setup (v : Byte) : (s.putChar v).setup = s.setup := by
  simp [State.putChar]
@[simp] theorem State.putChar_config (v : Byte) : (s.putChar v).config = s.config := by
  simp [State.putChar]
@[simp] theorem State.putChar_ram (v : Byte) : (s.putChar v).ram = s.ram := by
  simp [State.putChar]
@[simp] theorem State.putChar_pendingInput (v : Byte) : (s.putChar v).pendingInput = s.pendingInput := by
  simp [State.putChar]
@[simp] theorem State.putChar_haltAddress (v : Byte) : (s.putChar v).haltAddress = s.haltAddress := by
  simp [State.putChar]
@[simp] theorem State.putChar_cpu (v : Byte) : (s.putChar v).cpu = s.cpu := by
  simp [State.putChar]
@[simp] theorem State.putChar_running (v : Byte) : (s.putChar v).running = s.running := by
  simp [State.putChar]
@[simp] theorem State.putChar_watchAddress (v : Byte) : (s.putChar v).watchAddress = s.watchAddress := by
  simp [State.putChar]
@[simp] theorem State.putChar_surface (v : Byte) : (s.putChar v).surface = s.surface := by
  simp [State.putChar]
@[simp] theorem State.putChar_txLog (v : Byte) : (s.putChar v).txLog = s.txLog := by
  simp [State.putChar]
@[simp] theorem State.putChar_haltReports (v : Byte) : (s.putChar v).haltReports = s.haltReports := by
  simp [State.putChar]
@[simp] theorem State.putChar_loadFailures (v : Byte) : (s.putChar v).loadFailures = s.loadFailures := by
  simp [State.putChar]
@[simp] theorem State.putChar_terminated (v : Byte) : (s.putChar v).terminated = s.terminated := by
  simp [State.putChar]
@[simp] theorem State.putChar_resets (v : Byte) : (s.putChar v).resets = s.resets := by
  simp [State.putChar]
@[simp] theorem State.putChar_returned (v : Byte) : (s.putChar v).returned = s.returned := by
  simp [State.putChar]
@[simp] theorem State.putChar_inbox (v : Byte) : (s.putChar v).inbox = s.inbox := by
  simp [State.putChar]
@[simp] theorem State.putChar_cpuScript (v : Byte) : (s.putChar v).cpuScript = s.cpuScript := by
  simp [State.putChar]

@[simp] theorem State.putChar_updated (v : Byte) : (s.putChar v).updated = true := rfl

/-! What `writeCell` leaves alone. -/

@[simp] theorem State.writeCell_setup (a : Address) (v : Byte) : (s.writeCell a v).setup = s.setup := by
  simp [State.writeCell]
@[simp] theorem State.writeCell_config (a : Address) (v : Byte) : (s.writeCell a v).config = s.config := by
  simp [State.writeCell]
@[simp] theorem State.writeCell_ram (a : Address) (v : Byte) : (s.writeCell a v).ram = s.ram := by
  simp [State.writeCell]
@[simp] theorem State.writeCell_pendingInput (a : Address) (v : Byte) : (s.writeCell a v).pendingInput = s.pendingInput := by
  simp [State.writeCell]
@[simp] theorem State.writeCell_haltAddress (a : Address) (v : Byte) : (s.writeCell a v).haltAddress = s.haltAddress := by
  simp [State.writeCell]
@[simp] theorem State.writeCell_cursorX (a : Address) (v : Byte) : (s.writeCell a v).cursorX = s.cursorX := by
  simp [State.writeCell]
@[simp] theorem State.writeCell_cursorY (a : Address) (v : Byte) : (s.writeCell a v).cursorY = s.cursorY := by
  simp [State.writeCell]
@[simp] theorem State.writeCell_cpu (a : Address) (v : Byte) : (s.writeCell a v).cpu = s.cpu := by
  simp [State.writeCell]
@[simp] theorem State.writeCell_running (a : Address) (v : Byte) : (s.writeCell a v).running = s.running := by
  simp [State.writeCell]
@[simp] theorem State.writeCell_watchAddress (a : Address) (v : Byte) : (s.writeCell a v).watchAddress = s.watchAddress := by
  simp [State.writeCell]
@[simp] theorem State.writeCell_surface (a : Address) (v : Byte) : (s.writeCell a v).surface = s.surface := by
  simp [State.writeCell]
@[simp] theorem State.writeCell_txLog (a : Address) (v : Byte) : (s.writeCell a v).txLog = s.txLog := by
  simp [State.writeCell]
@[simp] theorem State.writeCell_haltReports (a : Address) (v : Byte) : (s.writeCell a v).haltReports = s.haltReports := by
  simp [State.writeCell]
@[simp] theorem State.writeCell_loadFailures (a : Address) (v : Byte) : (s.writeCell a v).loadFailures = s.loadFailures := by
  simp [State.writeCell]
@[simp] theorem State.writeCell_terminated (a : Address) (v : Byte) : (s.writeCell a v).terminated = s.terminated := by
  simp [State.writeCell]
@[simp] theorem State.writeCell_resets (a : Address) (v : Byte) : (s.writeCell a v).resets = s.resets := by
  simp [State.writeCell]
@[simp] theorem State.writeCell_returned (a : Address) (v : Byte) : (s.writeCell a v).returned = s.returned := by
  simp [State.writeCell]
@[simp] theorem State.writeCell_inbox (a : Address) (v : Byte) : (s.writeCell a v).inbox = s.inbox := by
  simp [State.writeCell]
@[simp] theorem State.writeCell_cpuScript (a : Address) (v : Byte) : (s.writeCell a v).cpuScript = s.cpuScript := by
  simp [State.writeCell]

/-! What `conWrite` leaves alone. -/

@[simp] theorem State.conWrite_setup (a : Address) (v : Byte) : (s.conWrite a v).setup = s.setup := by
  simp [State.conWrite, State.settle]
@[simp] theorem State.conWrite_config (a : Address) (v : Byte) : (s.conWrite a v).config = s.config := by
  simp [State.conWrite, State.settle]
@[simp] theorem State.conWrite_ram (a : Address) (v : Byte) : (s.conWrite a v).ram = s.ram := by
  simp [State.conWrite, State.settle]
@[simp] theorem State.conWrite_pendingInput (a : Address) (v : Byte) : (s.conWrite a v).pendingInput = s.pendingInput := by
  simp [State.conWrite, State.settle]
@[simp] theorem State.conWrite_haltAddress (a : Address) (v : Byte) : (s.conWrite a v).haltAddress = s.haltAddress := by
  simp [State.conWrite, State.settle]
@[simp] theorem State.conWrite_cursorX (a : Address) (v : Byte) : (s.conWrite a v).cursorX = s.cursorX := by
  simp [State.conWrite, State.settle]
@[simp] theorem State.conWrite_cursorY (a : Address) (v : Byte) : (s.conWrite a v).cursorY = s.cursorY := by
  simp [State.conWrite, State.settle]
@[simp] theorem State.conWrite_cpu (a : Address) (v : Byte) : (s.conWrite a v).cpu = s.cpu := by
  simp [State.conWrite, State.settle]
@[simp] theorem State.conWrite_running (a : Address) (v : Byte) : (s.conWrite a v).running = s.running := by
  simp [State.conWrite, State.settle]
@[simp] theorem State.conWrite_watchAddress (a : Address) (v : Byte) : (s.conWrite a v).watchAddress = s.watchAddress := by
  simp [State.conWrite, State.settle]
@[simp] theorem State.conWrite_surface (a : Address) (v : Byte) : (s.conWrite a v).surface = s.surface := by
  simp [State.conWrite, State.settle]
@[simp] theorem State.conWrite_txLog (a : Address) (v : Byte) : (s.conWrite a v).txLog = s.txLog := by
  simp [State.conWrite, State.settle]
@[simp] theorem State.conWrite_haltReports (a : Address) (v : Byte) : (s.conWrite a v).haltReports = s.haltReports := by
  simp [State.conWrite, State.settle]
@[simp] theorem State.conWrite_loadFailures (a : Address) (v : Byte) : (s.conWrite a v).loadFailures = s.loadFailures := by
  simp [State.conWrite, State.settle]
@[simp] theorem State.conWrite_terminated (a : Address) (v : Byte) : (s.conWrite a v).terminated = s.terminated := by
  simp [State.conWrite, State.settle]
@[simp] theorem State.conWrite_resets (a : Address) (v : Byte) : (s.conWrite a v).resets = s.resets := by
  simp [State.conWrite, State.settle]
@[simp] theorem State.conWrite_inbox (a : Address) (v : Byte) : (s.conWrite a v).inbox = s.inbox := by
  simp [State.conWrite, State.settle]
@[simp] theorem State.conWrite_cpuScript (a : Address) (v : Byte) : (s.conWrite a v).cpuScript = s.cpuScript := by
  simp [State.conWrite, State.settle]

/-! What `present` leaves alone. -/

@[simp] theorem State.present_setup (ok : Bool) : (s.present ok).setup = s.setup := by
  unfold State.present; split <;> rfl
@[simp] theorem State.present_config (ok : Bool) : (s.present ok).config = s.config := by
  unfold State.present; split <;> rfl
@[simp] theorem State.present_ram (ok : Bool) : (s.present ok).ram = s.ram := by
  unfold State.present; split <;> rfl
@[simp] theorem State.present_pendingInput (ok : Bool) : (s.present ok).pendingInput = s.pendingInput := by
  unfold State.present; split <;> rfl
@[simp] theorem State.present_haltAddress (ok : Bool) : (s.present ok).haltAddress = s.haltAddress := by
  unfold State.present; split <;> rfl
@[simp] theorem State.present_grid (ok : Bool) : (s.present ok).grid = s.grid := by
  unfold State.present; split <;> rfl
@[simp] theorem State.present_cursorX (ok : Bool) : (s.present ok).cursorX = s.cursorX := by
  unfold State.present; split <;> rfl
@[simp] theorem State.present_cursorY (ok : Bool) : (s.present ok).cursorY = s.cursorY := by
  unfold State.present; split <;> rfl
@[simp] theorem State.present_cpu (ok : Bool) : (s.present ok).cpu = s.cpu := by
  unfold State.present; split <;> rfl
@[simp] theorem State.present_running (ok : Bool) : (s.present ok).running = s.running := by
  unfold State.present; split <;> rfl
@[simp] theorem State.present_watchAddress (ok : Bool) : (s.present ok).watchAddress = s.watchAddress := by
  unfold State.present; split <;> rfl
@[simp] theorem State.present_txLog (ok : Bool) : (s.present ok).txLog = s.txLog := by
  unfold State.present; split <;> rfl
@[simp] theorem State.present_haltReports (ok : Bool) : (s.present ok).haltReports = s.haltReports := by
  unfold State.present; split <;> rfl
@[simp] theorem State.present_loadFailures (ok : Bool) : (s.present ok).loadFailures = s.loadFailures := by
  unfold State.present; split <;> rfl
@[simp] theorem State.present_terminated (ok : Bool) : (s.present ok).terminated = s.terminated := by
  unfold State.present; split <;> rfl
@[simp] theorem State.present_resets (ok : Bool) : (s.present ok).resets = s.resets := by
  unfold State.present; split <;> rfl
@[simp] theorem State.present_returned (ok : Bool) : (s.present ok).returned = s.returned := by
  unfold State.present; split <;> rfl
@[simp] theorem State.present_inbox (ok : Bool) : (s.present ok).inbox = s.inbox := by
  unfold State.present; split <;> rfl
@[simp] theorem State.present_cpuScript (ok : Bool) : (s.present ok).cpuScript = s.cpuScript := by
  unfold State.present; split <;> rfl

/-! What `uartWrite` leaves alone. -/

@[simp] theorem State.uartWrite_setup (v : Byte) (pc : Address) : (s.uartWrite v pc).setup = s.setup := by
  simp [State.uartWrite]
@[simp] theorem State.uartWrite_config (v : Byte) (pc : Address) : (s.uartWrite v pc).config = s.config := by
  simp [State.uartWrite]
@[simp] theorem State.uartWrite_ram (v : Byte) (pc : Address) : (s.uartWrite v pc).ram = s.ram := by
  simp [State.uartWrite]
@[simp] theorem State.uartWrite_pendingInput (v : Byte) (pc : Address) : (s.uartWrite v pc).pendingInput = s.pendingInput := by
  simp [State.uartWrite]
@[simp] theorem State.uartWrite_haltAddress (v : Byte) (pc : Address) : (s.uartWrite v pc).haltAddress = s.haltAddress := by
  simp [State.uartWrite]
@[simp] theorem State.uartWrite_cpu (v : Byte) (pc : Address) : (s.uartWrite v pc).cpu = s.cpu := by
  simp [State.uartWrite]
@[simp] theorem State.uartWrite_watchAddress (v : Byte) (pc : Address) : (s.uartWrite v pc).watchAddress = s.watchAddress := by
  simp [State.uartWrite]
@[simp] theorem State.uartWrite_surface (v : Byte) (pc : Address) : (s.uartWrite v pc).surface = s.surface := by
  simp [State.uartWrite]
@[simp] theorem State.uartWrite_loadFailures (v : Byte) (pc : Address) : (s.uartWrite v pc).loadFailures = s.loadFailures := by
  simp [State.uartWrite]
@[simp] theorem State.uartWrite_terminated (v : Byte) (pc : Address) : (s.uartWrite v pc).terminated = s.terminated := by
  simp [State.uartWrite]
@[simp] theorem State.uartWrite_resets (v : Byte) (pc : Address) : (s.uartWrite v pc).resets = s.resets := by
  simp [State.uartWrite]
@[simp] theorem State.uartWrite_inbox (v : Byte) (pc : Address) : (s.uartWrite v pc).inbox = s.inbox := by
  simp [State.uartWrite]
@[simp] theorem State.uartWrite_cpuScript (v : Byte) (pc : Address) : (s.uartWrite v pc).cpuScript = s.cpuScript := by
  simp [State.uartWrite]

/-! What `uartRead` leaves alone. -/

@[simp] theorem State.uartRead_setup (pc : Address) : (s.uartRead pc).setup = s.setup := by
  simp [State.uartRead]
@[simp] theorem State.uartRead_config (pc : Address) : (s.uartRead pc).config = s.config := by
  simp [State.uartRead]
@[simp] theorem State.uartRead_ram (pc : Address) : (s.uartRead pc).ram = s.ram := by
  simp [State.uartRead]
@[simp] theorem State.uartRead_haltAddress (pc : Address) : (s.uartRead pc).haltAddress = s.haltAddress := by
  simp [State.uartRead]
@[simp] theorem State.uartRead_grid (pc : Address) : (s.uartRead pc).grid = s.grid := by
  simp [State.uartRead]
@[simp] theorem State.uartRead_cursorX (pc : Address) : (s.uartRead pc).cursorX = s.cursorX := by
  simp [State.uartRead]
@[simp] theorem State.uartRead_cursorY (pc : Address) : (s.uartRead pc).cursorY = s.cursorY := by
  simp [State.uartRead]
@[simp] theorem State.uartRead_updated (pc : Address) : (s.uartRead pc).updated = s.updated := by
  simp [State.uartRead]
@[simp] theorem State.uartRead_cpu (pc : Address) : (s.uartRead pc).cpu = s.cpu := by
  simp [State.uartRead]
@[simp] theorem State.uartRead_watchAddress (pc : Address) : (s.uartRead pc).watchAddress = s.watchAddress := by
  simp [State.uartRead]
@[simp] theorem State.uartRead_surface (pc : Address) : (s.uartRead pc).surface = s.surface := by
  simp [State.uartRead]
@[simp] theorem State.uartRead_txLog (pc : Address) : (s.uartRead pc).txLog = s.txLog := by
  simp [State.uartRead]
@[simp] theorem State.uartRead_loadFailures (pc : Address) : (s.uartRead pc).loadFailures = s.loadFailures := by
  simp [State.uartRead]
@[simp] theorem State.uartRead_terminated (pc : Address) : (s.uartRead pc).terminated = s.terminated := by
  simp [State.uartRead]
@[simp] theorem State.uartRead_resets (pc : Address) : (s.uartRead pc).resets = s.resets := by
  simp [State.uartRead]
@[simp] theorem State.uartRead_inbox (pc : Address) : (s.uartRead pc).inbox = s.inbox := by
  simp [State.uartRead]
@[simp] theorem State.uartRead_cpuScript (pc : Address) : (s.uartRead pc).cpuScript = s.cpuScript := by
  simp [State.uartRead]

/-! What `ramRead` leaves alone. -/

@[simp] theorem State.ramRead_setup (a : Address) : (s.ramRead a).setup = s.setup := by
  simp [State.ramRead, State.settle]
@[simp] theorem State.ramRead_config (a : Address) : (s.ramRead a).config = s.config := by
  simp [State.ramRead, State.settle]
@[simp] theorem State.ramRead_ram (a : Address) : (s.ramRead a).ram = s.ram := by
  simp [State.ramRead, State.settle]
@[simp] theorem State.ramRead_pendingInput (a : Address) : (s.ramRead a).pendingInput = s.pendingInput := by
  simp [State.ramRead, State.settle]
@[simp] theorem State.ramRead_haltAddress (a : Address) : (s.ramRead a).haltAddress = s.haltAddress := by
  simp [State.ramRead, State.settle]
@[simp] theorem State.ramRead_grid (a : Address) : (s.ramRead a).grid = s.grid := by
  simp [State.ramRead, State.settle]
@[simp] theorem State.ramRead_cursorX (a : Address) : (s.ramRead a).cursorX = s.cursorX := by
  simp [State.ramRead, State.settle]
@[simp] theorem State.ramRead_cursorY (a : Address) : (s.ramRead a).cursorY = s.cursorY := by
  simp [State.ramRead, State.settle]
@[simp] theorem State.ramRead_updated (a : Address) : (s.ramRead a).updated = s.updated := by
  simp [State.ramRead, State.settle]
@[simp] theorem State.ramRead_cpu (a : Address) : (s.ramRead a).cpu = s.cpu := by
  simp [State.ramRead, State.settle]
@[simp] theorem State.ramRead_running (a : Address) : (s.ramRead a).running = s.running := by
  simp [State.ramRead, State.settle]
@[simp] theorem State.ramRead_watchAddress (a : Address) : (s.ramRead a).watchAddress = s.watchAddress := by
  simp [State.ramRead, State.settle]
@[simp] theorem State.ramRead_surface (a : Address) : (s.ramRead a).surface = s.surface := by
  simp [State.ramRead, State.settle]
@[simp] theorem State.ramRead_txLog (a : Address) : (s.ramRead a).txLog = s.txLog := by
  simp [State.ramRead, State.settle]
@[simp] theorem State.ramRead_haltReports (a : Address) : (s.ramRead a).haltReports = s.haltReports := by
  simp [State.ramRead, State.settle]
@[simp] theorem State.ramRead_loadFailures (a : Address) : (s.ramRead a).loadFailures = s.loadFailures := by
  simp [State.ramRead, State.settle]
@[simp] theorem State.ramRead_terminated (a : Address) : (s.ramRead a).terminated = s.terminated := by
  simp [State.ramRead, State.settle]
@[simp] theorem State.ramRead_resets (a : Address) : (s.ramRead a).resets = s.resets := by
  simp [State.ramRead, State.settle]
@[simp] theorem State.ramRead_inbox (a : Address) : (s.ramRead a).inbox = s.inbox := by
  simp [State.ramRead, State.settle]
@[simp] theorem State.ramRead_cpuScript (a : Address) : (s.ramRead a).cpuScript = s.cpuScript := by
  simp [State.ramRead, State.settle]

/-! What `ramWrite` leaves alone. -/

@[simp] theorem State.ramWrite_setup (a : Address) (b : Byte) : (s.ramWrite a b).setup = s.setup := by
  simp [State.ramWrite, State.settle]
@[simp] theorem State.ramWrite_config (a : Address) (b : Byte) : (s.ramWrite a b).config = s.config := by
  simp [State.ramWrite, State.settle]
@[simp] theorem State.ramWrite_pendingInput (a : Address) (b : Byte) : (s.ramWrite a b).pendingInput = s.pendingInput := by
  simp [State.ramWrite, State.settle]
@[simp] theorem State.ramWrite_haltAddress (a : Address) (b : Byte) : (s.ramWrite a b).haltAddress = s.haltAddress := by
  simp [State.ramWrite, State.settle]
@[simp] theorem State.ramWrite_grid (a : Address) (b : Byte) : (s.ramWrite a b).grid = s.grid := by
  simp [State.ramWrite, State.settle]
@[simp] theorem State.ramWrite_cursorX (a : Address) (b : Byte) : (s.ramWrite a b).cursorX = s.cursorX := by
  simp [State.ramWrite, State.settle]
@[simp] theorem State.ramWrite_cursorY (a : Address) (b : Byte) : (s.ramWrite a b).cursorY = s.cursorY := by
  simp [State.ramWrite, State.settle]
@[simp] theorem State.ramWrite_updated (a : Address) (b : Byte) : (s.ramWrite a b).updated = s.updated := by
  simp [State.ramWrite, State.settle]
@[simp] theorem State.ramWrite_cpu (a : Address) (b : Byte) : (s.ramWrite a b).cpu = s.cpu := by
  simp [State.ramWrite, State.settle]
@[simp] theorem State.ramWrite_running (a : Address) (b : Byte) : (s.ramWrite a b).running = s.running := by
  simp [State.ramWrite, State.settle]
@[simp] theorem State.ramWrite_watchAddress (a : Address) (b : Byte) : (s.ramWrite a b).watchAddress = s.watchAddress := by
  simp [State.ramWrite, State.settle]
@[simp] theorem State.ramWrite_surface (a : Address) (b : Byte) : (s.ramWrite a b).surface = s.surface := by
  simp [State.ramWrite, State.settle]
@[simp] theorem State.ramWrite_txLog (a : Address) (b : Byte) : (s.ramWrite a b).txLog = s.txLog := by
  simp [State.ramWrite, State.settle]
@[simp] theorem State.ramWrite_haltReports (a : Address) (b : Byte) : (s.ramWrite a b).haltReports = s.haltReports := by
  simp [State.ramWrite, State.settle]
@[simp] theorem State.ramWrite_loadFailures (a : Address) (b : Byte) : (s.ramWrite a b).loadFailures = s.loadFailures := by
  simp [State.ramWrite, State.settle]
@[simp] theorem State.ramWrite_terminated (a : Address) (b : Byte) : (s.ramWrite a b).terminated = s.terminated := by
  simp [State.ramWrite, State.settle]
@[simp] theorem State.ramWrite_resets (a : Address) (b : Byte) : (s.ramWrite a b).resets = s.resets := by
  simp [State.ramWrite, State.settle]
@[simp] theorem State.ramWrite_inbox (a : Address) (b : Byte) : (s.ramWrite a b).inbox = s.inbox := by
  simp [State.ramWrite, State.settle]
@[simp] theorem State.ramWrite_cpuScript (a : Address) (b : Byte) : (s.ramWrite a b).cpuScript = s.cpuScript := by
  simp [State.ramWrite, State.settle]

/-! What `busRead` leaves alone. -/

@[simp] theorem State.busRead_setup (a pc : Address) : (s.busRead a pc).setup = s.setup := by
  unfold State.busRead; split <;> simp
@[simp] theorem State.busRead_config (a pc : Address) : (s.busRead a pc).config = s.config := by
  unfold State.busRead; split <;> simp
@[simp] theorem State.busRead_ram (a pc : Address) : (s.busRead a pc).ram = s.ram := by
  unfold State.busRead; split <;> simp
@[simp] theorem State.busRead_haltAddress (a pc : Address) : (s.busRead a pc).haltAddress = s.haltAddress := by
  unfold State.busRead; split <;> simp
@[simp] theorem State.busRead_grid (a pc : Address) : (s.busRead a pc).grid = s.grid := by
  unfold State.busRead; split <;> simp
@[simp] theorem State.busRead_cursorX (a pc : Address) : (s.busRead a pc).cursorX = s.cursorX := by
  unfold State.busRead; split <;> simp
@[simp] theorem State.busRead_cursorY (a pc : Address) : (s.busRead a pc).cursorY = s.cursorY := by
  unfold State.busRead; split <;> simp
@[simp] theorem State.busRead_updated (a pc : Address) : (s.busRead a pc).updated = s.updated := by
  unfold State.busRead; split <;> simp
@[simp] theorem State.busRead_cpu (a pc : Address) : (s.busRead a pc).cpu = s.cpu := by
  unfold State.busRead; split <;> simp
@[simp] theorem State.busRead_watchAddress (a pc : Address) : (s.busRead a pc).watchAddress = s.watchAddress := by
  unfold State.busRead; split <;> simp
@[simp] theorem State.busRead_surface (a pc : Address) : (s.busRead a pc).surface = s.surface := by
  unfold State.busRead; split <;> simp
@[simp] theorem State.busRead_txLog (a pc : Address) : (s.busRead a pc).txLog = s.txLog := by
  unfold State.busRead; split <;> simp
@[simp] theorem State.busRead_loadFailures (a pc : Address) : (s.busRead a pc).loadFailures = s.loadFailures := by
  unfold State.busRead; split <;> simp
@[simp] theorem State.busRead_terminated (a pc : Address) : (s.busRead a pc).terminated = s.terminated := by
  unfold State.busRead; split <;> simp
@[simp] theorem State.busRead_resets (a pc : Address) : (s.busRead a pc).resets = s.resets := by
  unfold State.busRead; split <;> simp
@[simp] theorem State.busRead_inbox (a pc : Address) : (s.busRead a pc).inbox = s.inbox := by
  unfold State.busRead; split <;> simp
@[simp] theorem State.busRead_cpuScript (a pc : Address) : (s.busRead a pc).cpuScript = s.cpuScript := by
  unfold State.busRead; split <;> simp

/-! What `busWrite` leaves alone. -/

@[simp] theorem State.busWrite_setup (a : Address) (b : Byte) (pc : Address) : (s.busWrite a b pc).setup = s.setup := by
  unfold State.busWrite; split <;> simp
@[simp] theorem State.busWrite_config (a : Address) (b : Byte) (pc : Address) : (s.busWrite a b pc).config = s.config := by
  unfold State.busWrite; split <;> simp
@[simp] theorem State.busWrite_pendingInput (a : Address) (b : Byte) (pc : Address) : (s.busWrite a b pc).pendingInput = s.pendingInput := by
  unfold State.busWrite; split <;> simp
@[simp] theorem State.busWrite_haltAddress (a : Address) (b : Byte) (pc : Address) : (s.busWrite a b pc).haltAddress = s.haltAddress := by
  unfold State.busWrite; split <;> simp
@[simp] theorem State.busWrite_cpu (a : Address) (b : Byte) (pc : Address) : (s.busWrite a b pc).cpu = s.cpu := by
  unfold State.busWrite; split <;> simp
@[simp] theorem State.busWrite_watchAddress (a : Address) (b : Byte) (pc : Address) : (s.busWrite a b pc).watchAddress = s.watchAddress := by
  unfold State.busWrite; split <;> simp
@[simp] theorem State.busWrite_surface (a : Address) (b : Byte) (pc : Address) : (s.busWrite a b pc).surface = s.surface := by
  unfold State.busWrite; split <;> simp
@[simp] theorem State.busWrite_loadFailures (a : Address) (b : Byte) (pc : Address) : (s.busWrite a b pc).loadFailures = s.loadFailures := by
  unfold State.busWrite; split <;> simp
@[simp] theorem State.busWrite_terminated (a : Address) (b : Byte) (pc : Address) : (s.busWrite a b pc).terminated = s.terminated := by
  unfold State.busWrite; split <;> simp
@[simp] theorem State.busWrite_resets (a : Address) (b : Byte) (pc : Address) : (s.busWrite a b pc).resets = s.resets := by
  unfold State.busWrite; split <;> simp
@[simp] theorem State.busWrite_inbox (a : Address) (b : Byte) (pc : Address) : (s.busWrite a b pc).inbox = s.inbox := by
  unfold State.busWrite; split <;> simp
@[simp] theorem State.busWrite_cpuScript (a : Address) (b : Byte) (pc : Address) : (s.busWrite a b pc).cpuScript = s.cpuScript := by
  unfold State.busWrite; split <;> simp

/-! What `transact` leaves alone. -/

@[simp] theorem State.transact_setup (t : Transaction) : (s.transact t).setup = s.setup := by
  unfold State.transact; split <;> simp
@[simp] theorem State.transact_config (t : Transaction) : (s.transact t).config = s.config := by
  unfold State.transact; split <;> simp
@[simp] theorem State.transact_haltAddress (t : Transaction) : (s.transact t).haltAddress = s.haltAddress := by
  unfold State.transact; split <;> simp
@[simp] theorem State.transact_cpu (t : Transaction) : (s.transact t).cpu = s.cpu := by
  unfold State.transact; split <;> simp
@[simp] theorem State.transact_watchAddress (t : Transaction) : (s.transact t).watchAddress = s.watchAddress := by
  unfold State.transact; split <;> simp
@[simp] theorem State.transact_surface (t : Transaction) : (s.transact t).surface = s.surface := by
  unfold State.transact; split <;> simp
@[simp] theorem State.transact_loadFailures (t : Transaction) : (s.transact t).loadFailures = s.loadFailures := by
  unfold State.transact; split <;> simp
@[simp] theorem State.transact_terminated (t : Transaction) : (s.transact t).terminated = s.terminated := by
  unfold State.transact; split <;> simp
@[simp] theorem State.transact_resets (t : Transaction) : (s.transact t).resets = s.resets := by
  unfold State.transact; split <;> simp
@[simp] theorem State.transact_inbox (t : Transaction) : (s.transact t).inbox = s.inbox := by
  unfold State.transact; split <;> simp
@[simp] theorem State.transact_cpuScript (t : Transaction) : (s.transact t).cpuScript = s.cpuScript := by
  unfold State.transact; split <;> simp

/-! What no sequence of transactions touches. -/

@[simp] theorem State.transactAll_setup (ts : List Transaction) : (s.transactAll ts).setup = s.setup := by
  induction ts generalizing s with
  | nil => rfl
  | cons t ts ih => simp [State.transactAll] at ih ⊢; simp [ih]
@[simp] theorem State.transactAll_config (ts : List Transaction) : (s.transactAll ts).config = s.config := by
  induction ts generalizing s with
  | nil => rfl
  | cons t ts ih => simp [State.transactAll] at ih ⊢; simp [ih]
@[simp] theorem State.transactAll_haltAddress (ts : List Transaction) : (s.transactAll ts).haltAddress = s.haltAddress := by
  induction ts generalizing s with
  | nil => rfl
  | cons t ts ih => simp [State.transactAll] at ih ⊢; simp [ih]
@[simp] theorem State.transactAll_cpu (ts : List Transaction) : (s.transactAll ts).cpu = s.cpu := by
  induction ts generalizing s with
  | nil => rfl
  | cons t ts ih => simp [State.transactAll] at ih ⊢; simp [ih]
@[simp] theorem State.transactAll_watchAddress (ts : List Transaction) : (s.transactAll ts).watchAddress = s.watchAddress := by
  induction ts generalizing s with
  | nil => rfl
  | cons t ts ih => simp [State.transactAll] at ih ⊢; simp [ih]
@[simp] theorem State.transactAll_surface (ts : List Transaction) : (s.transactAll ts).surface = s.surface := by
  induction ts generalizing s with
  | nil => rfl
  | cons t ts ih => simp [State.transactAll] at ih ⊢; simp [ih]
@[simp] theorem State.transactAll_loadFailures (ts : List Transaction) : (s.transactAll ts).loadFailures = s.loadFailures := by
  induction ts generalizing s with
  | nil => rfl
  | cons t ts ih => simp [State.transactAll] at ih ⊢; simp [ih]
@[simp] theorem State.transactAll_terminated (ts : List Transaction) : (s.transactAll ts).terminated = s.terminated := by
  induction ts generalizing s with
  | nil => rfl
  | cons t ts ih => simp [State.transactAll] at ih ⊢; simp [ih]
@[simp] theorem State.transactAll_resets (ts : List Transaction) : (s.transactAll ts).resets = s.resets := by
  induction ts generalizing s with
  | nil => rfl
  | cons t ts ih => simp [State.transactAll] at ih ⊢; simp [ih]
@[simp] theorem State.transactAll_inbox (ts : List Transaction) : (s.transactAll ts).inbox = s.inbox := by
  induction ts generalizing s with
  | nil => rfl
  | cons t ts ih => simp [State.transactAll] at ih ⊢; simp [ih]
@[simp] theorem State.transactAll_cpuScript (ts : List Transaction) : (s.transactAll ts).cpuScript = s.cpuScript := by
  induction ts generalizing s with
  | nil => rfl
  | cons t ts ih => simp [State.transactAll] at ih ⊢; simp [ih]

/-! What no CPU instruction touches but through `done`. -/

@[simp] theorem State.perform_setup (r : CpuRun) (s : State) : (State.perform r s).setup = s.setup := by
  induction r generalizing s with
  | done => rfl
  | read a pc k ih => simp [State.perform, ih]
  | write a b pc r ih => simp [State.perform, ih]
@[simp] theorem State.perform_config (r : CpuRun) (s : State) : (State.perform r s).config = s.config := by
  induction r generalizing s with
  | done => rfl
  | read a pc k ih => simp [State.perform, ih]
  | write a b pc r ih => simp [State.perform, ih]
@[simp] theorem State.perform_haltAddress (r : CpuRun) (s : State) : (State.perform r s).haltAddress = s.haltAddress := by
  induction r generalizing s with
  | done => rfl
  | read a pc k ih => simp [State.perform, ih]
  | write a b pc r ih => simp [State.perform, ih]
@[simp] theorem State.perform_watchAddress (r : CpuRun) (s : State) : (State.perform r s).watchAddress = s.watchAddress := by
  induction r generalizing s with
  | done => rfl
  | read a pc k ih => simp [State.perform, ih]
  | write a b pc r ih => simp [State.perform, ih]
@[simp] theorem State.perform_surface (r : CpuRun) (s : State) : (State.perform r s).surface = s.surface := by
  induction r generalizing s with
  | done => rfl
  | read a pc k ih => simp [State.perform, ih]
  | write a b pc r ih => simp [State.perform, ih]
@[simp] theorem State.perform_loadFailures (r : CpuRun) (s : State) : (State.perform r s).loadFailures = s.loadFailures := by
  induction r generalizing s with
  | done => rfl
  | read a pc k ih => simp [State.perform, ih]
  | write a b pc r ih => simp [State.perform, ih]
@[simp] theorem State.perform_terminated (r : CpuRun) (s : State) : (State.perform r s).terminated = s.terminated := by
  induction r generalizing s with
  | done => rfl
  | read a pc k ih => simp [State.perform, ih]
  | write a b pc r ih => simp [State.perform, ih]
@[simp] theorem State.perform_resets (r : CpuRun) (s : State) : (State.perform r s).resets = s.resets := by
  induction r generalizing s with
  | done => rfl
  | read a pc k ih => simp [State.perform, ih]
  | write a b pc r ih => simp [State.perform, ih]
@[simp] theorem State.perform_inbox (r : CpuRun) (s : State) : (State.perform r s).inbox = s.inbox := by
  induction r generalizing s with
  | done => rfl
  | read a pc k ih => simp [State.perform, ih]
  | write a b pc r ih => simp [State.perform, ih]
@[simp] theorem State.perform_cpuScript (r : CpuRun) (s : State) : (State.perform r s).cpuScript = s.cpuScript := by
  induction r generalizing s with
  | done => rfl
  | read a pc k ih => simp [State.perform, ih]
  | write a b pc r ih => simp [State.perform, ih]

/-! What `watchCheck` leaves alone. -/

@[simp] theorem State.watchCheck_setup : (s.watchCheck).setup = s.setup := by
  unfold State.watchCheck; split <;> simp
@[simp] theorem State.watchCheck_config : (s.watchCheck).config = s.config := by
  unfold State.watchCheck; split <;> simp
@[simp] theorem State.watchCheck_ram : (s.watchCheck).ram = s.ram := by
  unfold State.watchCheck; split <;> simp
@[simp] theorem State.watchCheck_pendingInput : (s.watchCheck).pendingInput = s.pendingInput := by
  unfold State.watchCheck; split <;> simp
@[simp] theorem State.watchCheck_haltAddress : (s.watchCheck).haltAddress = s.haltAddress := by
  unfold State.watchCheck; split <;> simp
@[simp] theorem State.watchCheck_grid : (s.watchCheck).grid = s.grid := by
  unfold State.watchCheck; split <;> simp
@[simp] theorem State.watchCheck_cursorX : (s.watchCheck).cursorX = s.cursorX := by
  unfold State.watchCheck; split <;> simp
@[simp] theorem State.watchCheck_cursorY : (s.watchCheck).cursorY = s.cursorY := by
  unfold State.watchCheck; split <;> simp
@[simp] theorem State.watchCheck_updated : (s.watchCheck).updated = s.updated := by
  unfold State.watchCheck; split <;> simp
@[simp] theorem State.watchCheck_cpu : (s.watchCheck).cpu = s.cpu := by
  unfold State.watchCheck; split <;> simp
@[simp] theorem State.watchCheck_watchAddress : (s.watchCheck).watchAddress = s.watchAddress := by
  unfold State.watchCheck; split <;> simp
@[simp] theorem State.watchCheck_surface : (s.watchCheck).surface = s.surface := by
  unfold State.watchCheck; split <;> simp
@[simp] theorem State.watchCheck_txLog : (s.watchCheck).txLog = s.txLog := by
  unfold State.watchCheck; split <;> simp
@[simp] theorem State.watchCheck_loadFailures : (s.watchCheck).loadFailures = s.loadFailures := by
  unfold State.watchCheck; split <;> simp
@[simp] theorem State.watchCheck_terminated : (s.watchCheck).terminated = s.terminated := by
  unfold State.watchCheck; split <;> simp
@[simp] theorem State.watchCheck_resets : (s.watchCheck).resets = s.resets := by
  unfold State.watchCheck; split <;> simp
@[simp] theorem State.watchCheck_returned : (s.watchCheck).returned = s.returned := by
  unfold State.watchCheck; split <;> simp
@[simp] theorem State.watchCheck_inbox : (s.watchCheck).inbox = s.inbox := by
  unfold State.watchCheck; split <;> simp
@[simp] theorem State.watchCheck_cpuScript : (s.watchCheck).cpuScript = s.cpuScript := by
  unfold State.watchCheck; split <;> simp

/-! What `setWatch` leaves alone. -/

@[simp] theorem State.setWatch_setup (a : Address) : (s.setWatch a).setup = s.setup := by
  simp only [State.setWatch]; split <;> rfl
@[simp] theorem State.setWatch_config (a : Address) : (s.setWatch a).config = s.config := by
  simp only [State.setWatch]; split <;> rfl
@[simp] theorem State.setWatch_ram (a : Address) : (s.setWatch a).ram = s.ram := by
  simp only [State.setWatch]; split <;> rfl
@[simp] theorem State.setWatch_pendingInput (a : Address) : (s.setWatch a).pendingInput = s.pendingInput := by
  simp only [State.setWatch]; split <;> rfl
@[simp] theorem State.setWatch_grid (a : Address) : (s.setWatch a).grid = s.grid := by
  simp only [State.setWatch]; split <;> rfl
@[simp] theorem State.setWatch_cursorX (a : Address) : (s.setWatch a).cursorX = s.cursorX := by
  simp only [State.setWatch]; split <;> rfl
@[simp] theorem State.setWatch_cursorY (a : Address) : (s.setWatch a).cursorY = s.cursorY := by
  simp only [State.setWatch]; split <;> rfl
@[simp] theorem State.setWatch_updated (a : Address) : (s.setWatch a).updated = s.updated := by
  simp only [State.setWatch]; split <;> rfl
@[simp] theorem State.setWatch_cpu (a : Address) : (s.setWatch a).cpu = s.cpu := by
  simp only [State.setWatch]; split <;> rfl
@[simp] theorem State.setWatch_running (a : Address) : (s.setWatch a).running = s.running := by
  simp only [State.setWatch]; split <;> rfl
@[simp] theorem State.setWatch_surface (a : Address) : (s.setWatch a).surface = s.surface := by
  simp only [State.setWatch]; split <;> rfl
@[simp] theorem State.setWatch_txLog (a : Address) : (s.setWatch a).txLog = s.txLog := by
  simp only [State.setWatch]; split <;> rfl
@[simp] theorem State.setWatch_haltReports (a : Address) : (s.setWatch a).haltReports = s.haltReports := by
  simp only [State.setWatch]; split <;> rfl
@[simp] theorem State.setWatch_loadFailures (a : Address) : (s.setWatch a).loadFailures = s.loadFailures := by
  simp only [State.setWatch]; split <;> rfl
@[simp] theorem State.setWatch_terminated (a : Address) : (s.setWatch a).terminated = s.terminated := by
  simp only [State.setWatch]; split <;> rfl
@[simp] theorem State.setWatch_resets (a : Address) : (s.setWatch a).resets = s.resets := by
  simp only [State.setWatch]; split <;> rfl
@[simp] theorem State.setWatch_returned (a : Address) : (s.setWatch a).returned = s.returned := by
  simp only [State.setWatch]; split <;> rfl
@[simp] theorem State.setWatch_inbox (a : Address) : (s.setWatch a).inbox = s.inbox := by
  simp only [State.setWatch]; split <;> rfl
@[simp] theorem State.setWatch_cpuScript (a : Address) : (s.setWatch a).cpuScript = s.cpuScript := by
  simp only [State.setWatch]; split <;> rfl

end Sys2Proof.Machine
end

