-- ==== Sys2Proof/Laws/Regions.lean ====
section
/-!
SUPPORT. What the region table of a configuration selects (40_bus_dispatch.md R126), without the table.
-/

namespace Sys2Proof.Machine

variable (c : Config) (a : Nat)

/-- A read is taken at the UART's address alone (R126, R128). -/
theorem readHandlerAt_regions :
    readHandlerAt (regions c) a = if a = c.uartAddr then some .uartRd else none := by
  simp only [readHandlerAt, regions, consoleRegion, uartRegion, List.find?_cons, Region.covers]
  by_cases h : a = c.uartAddr
  · simp [h]
  · have h2 : (decide (c.uartAddr ≤ a) && decide (a ≤ c.uartAddr)) = false := by
      simp; omega
    simp [h, h2]

/-- A write is taken in the console's region and at the UART's address (R126). -/
theorem writeHandlerAt_regions :
    writeHandlerAt (regions c) a =
      if c.consoleBase ≤ a ∧ a ≤ consoleLast c then some .conWr
      else if a = c.uartAddr then some .uartWr else none := by
  simp only [writeHandlerAt, regions, consoleRegion, uartRegion, List.find?_cons, Region.covers]
  by_cases h1 : c.consoleBase ≤ a ∧ a ≤ consoleLast c
  · simp [h1]
  · rw [if_neg h1]
    have h1' : (decide (c.consoleBase ≤ a) && decide (a ≤ consoleLast c)) = false := by
      simpa [← not_and_or] using h1
    rw [h1']
    by_cases h : a = c.uartAddr
    · simp [h]
    · have h2 : (decide (c.uartAddr ≤ a) && decide (a ≤ c.uartAddr)) = false := by
        simp; omega
      simp [h, h2]

/-- The relations between the parameters (R9), read off the check. -/
theorem configWellFormed_iff :
    configWellFormed c = true ↔
      (1 ≤ c.width ∧ 1 ≤ c.height) ∧
      (c.consoleBase ≤ consoleLast c ∧ consoleLast c ≤ lastAddress) ∧ c.uartAddr ≤ lastAddress ∧
      c.resetVector + 1 ≤ lastAddress ∧ ¬ (c.consoleBase ≤ c.uartAddr ∧ c.uartAddr ≤ consoleLast c) ∧
      (c.addrWidth = 16 ∧ c.dataWidth = 8 ∧ c.ramSize = 0x10000) := by
  simp [configWellFormed, gridNotEmpty, widthsValid, addressesInRange, regions, consoleRegion, uartRegion, Region.inRange,
    noOverlap, Region.conflicts]
  grind

/-- The reference configuration is well formed (R9, R126). -/
theorem reference_wellFormed : configWellFormed Config.reference = true := WellFormedConfig.reference.wellFormed

/-- The region table of a well-formed configuration passes the check of R125. -/
theorem regions_wellFormed (h : configWellFormed c = true) : tableWellFormed (regions c) = true := by
  simp only [configWellFormed, addressesInRange, tableWellFormed, Bool.and_eq_true] at h ⊢
  exact ⟨h.1.2.1, h.2⟩

end Sys2Proof.Machine
end

