-- ==== Sys2Proof/Laws/Console.lean ====
section
/-!
SUPPORT. The grid and the cursor: what a glyph, a scroll and a PUTCHAR do (42_console.md R160 to R164).
-/

namespace Sys2Proof.Machine

/-- The shape and the colours every grid of the console has (R28, R39). -/
structure Grid.Ok (c : Config) (g : Grid) : Prop where
  rows : g.length = c.height
  columns : ∀ row ∈ g, row.length = c.width
  colours : ∀ row ∈ g, ∀ cell ∈ row, cell.fg = .white ∧ cell.bg = .black

theorem Grid.blank_ok (c : Config) : Grid.Ok c (Grid.blank c.width c.height) where
  rows := by simp [Grid.blank]
  columns := by simp [Grid.blank, List.mem_replicate]
  colours := by simp [Grid.blank, List.mem_replicate, Cell.blank, Cell.ofGlyph]

/-- A grid made of cells has the size asked for (R35, R203). -/
theorem Grid.ofCells_size (w h : Nat) (f : Nat → Nat → Cell) :
    (Grid.ofCells w h f).length = h ∧ ∀ row ∈ Grid.ofCells w h f, row.length = w := by
  simp [Grid.ofCells]

theorem Grid.put_ok {c : Config} {g : Grid} (x y : Nat) (v : Byte) (h : Grid.Ok c g) :
    Grid.Ok c (Grid.put g x y (Cell.ofGlyph v)) := by
  have key : ∀ row ∈ Grid.put g x y (Cell.ofGlyph v),
      row ∈ g ∨ ∃ r ∈ g, row = r.set x (Cell.ofGlyph v) := by
    intro row hr
    simp only [Grid.put, List.mem_iff_getElem?, List.getElem?_modify] at hr
    obtain ⟨i, hi⟩ := hr
    by_cases hy : y = i
    · obtain ⟨r, h1, h2⟩ := Option.map_eq_some_iff.1 hi
      simp [hy] at h2
      exact .inr ⟨r, List.mem_of_getElem? h1, h2.symm⟩
    · simp [hy] at hi
      exact .inl (List.mem_of_getElem? hi)
  refine ⟨by simp [Grid.put, h.rows], fun row hr => ?_, fun row hr cell hc => ?_⟩
  · rcases key row hr with hr | ⟨r, hr', rfl⟩
    · exact h.columns row hr
    · simpa using h.columns r hr'
  · rcases key row hr with hr | ⟨r, hr', rfl⟩
    · exact h.colours row hr cell hc
    · rcases List.mem_or_eq_of_mem_set hc with hc | rfl
      · exact h.colours r hr' cell hc
      · exact ⟨rfl, rfl⟩

theorem Grid.scrolled_ok {c : Config} {g : Grid} (h : Grid.Ok c g) : Grid.Ok c (Grid.scrolled c.width g) := by
  cases g with
  | nil => exact h
  | cons r rows =>
    refine ⟨by simpa [Grid.scrolled] using h.rows, fun row hr => ?_, fun row hr cell hc => ?_⟩
    · simp only [Grid.scrolled, List.mem_append, List.mem_singleton] at hr
      rcases hr with hr | rfl
      · exact h.columns row (List.mem_cons_of_mem _ hr)
      · simp
    · simp only [Grid.scrolled, List.mem_append, List.mem_singleton] at hr
      rcases hr with hr | rfl
      · exact h.colours row (List.mem_cons_of_mem _ hr) cell hc
      · rw [List.eq_of_mem_replicate hc]; exact ⟨rfl, rfl⟩

/-- A glyph in a cell of the grid changes that cell and no other (R160). -/
theorem Grid.cell?_put {c : Config} {g : Grid} (h : Grid.Ok c g) {x y : Nat} (hx : x < c.width) (hy : y < c.height)
    (cell : Cell) (i j : Nat) :
    Grid.cell? (Grid.put g x y cell) i j = if i = x ∧ j = y then some cell else Grid.cell? g i j := by
  simp only [Grid.cell?, Grid.put, List.getElem?_modify]
  by_cases hj : y = j
  · subst hj
    have hlt : y < g.length := by rw [h.rows]; exact hy
    have hw : g[y].length = c.width := h.columns _ (List.getElem_mem hlt)
    simp only [List.getElem?_eq_getElem hlt]
    by_cases hi : i = x
    · subst hi; simp [hw, hx]
    · simp [hi, List.getElem?_set_ne (Ne.symm hi)]
  · simp [hj, Ne.symm hj]

/-- Row `i` after a scroll is row `i+1` before it, and the last row is blank (R163, R167). -/
theorem Grid.cell?_scrolled {c : Config} {g : Grid} (h : Grid.Ok c g) (hh : 1 ≤ c.height) (i j : Nat) (hi : i < c.width) :
    Grid.cell? (Grid.scrolled c.width g) i j =
      if j = c.height - 1 then some Cell.blank else Grid.cell? g i (j + 1) := by
  have hr := h.rows
  cases g with
  | nil => simp at hr; omega
  | cons r rows =>
    have hlen : rows.length = c.height - 1 := by simp at hr; omega
    simp only [Grid.cell?, Grid.scrolled]
    split_ifs with hj
    · subst hj; simp [← hlen, hi]
    · rw [List.getElem?_cons_succ]
      by_cases hlt : j < rows.length
      · rw [List.getElem?_append_left hlt]
      · rw [List.getElem?_eq_none (l := rows ++ _) (by simp; omega), List.getElem?_eq_none (by omega)]

/-- The invariant of the console alone: the grid's shape and colours, and the cursor's bounds (R30, R39). -/
structure State.ConsoleOk (s : State) : Prop where
  grid : Grid.Ok s.config s.grid
  width : 1 ≤ s.config.width
  cursorX : s.cursorX < s.config.width
  cursorY : s.cursorY < s.config.height

theorem State.advance_newline {s : State} {v : Byte} (h : v = newlineByte s.config) :
    s.advance v = s.moveCursor 0 (s.cursorY + 1) := if_pos h

theorem State.advance_wrap {s : State} {v : Byte} (h : v ≠ newlineByte s.config)
    (hx : s.cursorX + 1 > s.config.width - 1) :
    s.advance v = (s.putGlyph s.cursorX s.cursorY v).moveCursor 0 (s.cursorY + 1) := (if_neg h).trans (if_pos hx)

theorem State.advance_glyph {s : State} {v : Byte} (h : v ≠ newlineByte s.config)
    (hx : ¬ s.cursorX + 1 > s.config.width - 1) :
    s.advance v = (s.putGlyph s.cursorX s.cursorY v).moveCursor (s.cursorX + 1) s.cursorY :=
  (if_neg h).trans (if_neg hx)

theorem State.scrollIfBelow_below {s : State} (h : s.cursorY > s.config.height - 1) :
    s.scrollIfBelow = s.scroll.moveCursor s.cursorX (s.config.height - 1) := if_pos h

theorem State.scrollIfBelow_inside {s : State} (h : ¬ s.cursorY > s.config.height - 1) :
    s.scrollIfBelow = s := if_neg h

/-- What PUTCHAR does, in the five cases of R164. -/
theorem State.putChar_cases {s : State} (h : s.ConsoleOk) (v : Byte) :
    (v = newlineByte s.config ∧ s.cursorY + 1 < s.config.height ∧
      (s.putChar v).grid = s.grid ∧ (s.putChar v).cursorX = 0 ∧ (s.putChar v).cursorY = s.cursorY + 1) ∨
    (v = newlineByte s.config ∧ s.cursorY + 1 = s.config.height ∧
      (s.putChar v).grid = Grid.scrolled s.config.width s.grid ∧
      (s.putChar v).cursorX = 0 ∧ (s.putChar v).cursorY = s.cursorY) ∨
    (v ≠ newlineByte s.config ∧ s.cursorX + 1 < s.config.width ∧
      (s.putChar v).grid = Grid.put s.grid s.cursorX s.cursorY (Cell.ofGlyph v) ∧
      (s.putChar v).cursorX = s.cursorX + 1 ∧ (s.putChar v).cursorY = s.cursorY) ∨
    (v ≠ newlineByte s.config ∧ s.cursorX + 1 = s.config.width ∧ s.cursorY + 1 < s.config.height ∧
      (s.putChar v).grid = Grid.put s.grid s.cursorX s.cursorY (Cell.ofGlyph v) ∧
      (s.putChar v).cursorX = 0 ∧ (s.putChar v).cursorY = s.cursorY + 1) ∨
    (v ≠ newlineByte s.config ∧ s.cursorX + 1 = s.config.width ∧ s.cursorY + 1 = s.config.height ∧
      (s.putChar v).grid =
        Grid.scrolled s.config.width (Grid.put s.grid s.cursorX s.cursorY (Cell.ofGlyph v)) ∧
      (s.putChar v).cursorX = 0 ∧ (s.putChar v).cursorY = s.cursorY) := by
  have hx := h.cursorX
  have hy := h.cursorY
  have hp : s.putChar v = (s.advance v).scrollIfBelow.markUpdated := rfl
  by_cases hv : v = newlineByte s.config
  · have ha : s.advance v = s.moveCursor 0 (s.cursorY + 1) := State.advance_newline hv
    by_cases hb : s.cursorY + 1 < s.config.height
    · refine .inl ⟨hv, hb, ?_⟩
      have hs : (s.advance v).scrollIfBelow = s.advance v :=
        State.scrollIfBelow_inside (by simp [ha]; omega)
      rw [hp, hs, ha]; simp
    · refine .inr (.inl ⟨hv, by omega, ?_⟩)
      have hs := State.scrollIfBelow_below (s := s.advance v) (by simp [ha]; omega)
      rw [hp, hs, ha]; simp; omega
  · by_cases hw : s.cursorX + 1 < s.config.width
    · refine .inr (.inr (.inl ⟨hv, hw, ?_⟩))
      have ha : s.advance v = (s.putGlyph s.cursorX s.cursorY v).moveCursor (s.cursorX + 1) s.cursorY :=
        State.advance_glyph hv (by omega)
      have hs : (s.advance v).scrollIfBelow = s.advance v :=
        State.scrollIfBelow_inside (by simp [ha]; omega)
      rw [hp, hs, ha]; simp
    · have ha : s.advance v = (s.putGlyph s.cursorX s.cursorY v).moveCursor 0 (s.cursorY + 1) :=
        State.advance_wrap hv (by omega)
      by_cases hb : s.cursorY + 1 < s.config.height
      · refine .inr (.inr (.inr (.inl ⟨hv, by omega, hb, ?_⟩)))
        have hs : (s.advance v).scrollIfBelow = s.advance v :=
        State.scrollIfBelow_inside (by simp [ha]; omega)
        rw [hp, hs, ha]; simp
      · refine .inr (.inr (.inr (.inr ⟨hv, by omega, by omega, ?_⟩)))
        have hs := State.scrollIfBelow_below (s := s.advance v) (by simp [ha]; omega)
        rw [hp, hs, ha]; simp; omega

/-- PUTCHAR keeps the grid's shape and colours and the cursor's bounds (R30, R39). -/
theorem State.putChar_ok {s : State} (h : s.ConsoleOk) (v : Byte) : (s.putChar v).ConsoleOk := by
  have hx := h.cursorX
  have hy := h.cursorY
  have hw := h.width
  have hput := Grid.put_ok s.cursorX s.cursorY v h.grid
  rcases State.putChar_cases h v with ⟨_, h2, hg, hcx, hcy⟩ | ⟨_, h2, hg, hcx, hcy⟩ | ⟨_, h2, hg, hcx, hcy⟩ |
    ⟨_, h2, h3, hg, hcx, hcy⟩ | ⟨_, h2, h3, hg, hcx, hcy⟩ <;>
  refine ⟨?_, ?_, ?_, ?_⟩ <;> simp only [State.putChar_config, hg, hcx, hcy] <;> try omega
  all_goals first
    | exact h.grid
    | exact hput
    | exact Grid.scrolled_ok h.grid
    | exact Grid.scrolled_ok hput

/-- A cell below the grid does not exist. -/
theorem Grid.cell?_below {c : Config} {g : Grid} (h : Grid.Ok c g) (x : Nat) {y : Nat} (hy : c.height ≤ y) :
    Grid.cell? g x y = none := by
  simp [Grid.cell?, List.getElem?_eq_none (show g.length ≤ y by rw [h.rows]; exact hy)]

/-- PUTCHAR changes the grid, the cursor and `updated`, and nothing else (R162). -/
theorem State.putChar_frame (s : State) (v : Byte) :
    s.putChar v = { s with
      grid := (s.putChar v).grid, cursorX := (s.putChar v).cursorX, cursorY := (s.putChar v).cursorY,
      updated := true } := by
  conv_lhs => rw [show s.putChar v = { s.putChar v with updated := true } from rfl]
  simp only [State.putChar_setup, State.putChar_loadFailures, State.putChar_ram,
    State.putChar_pendingInput, State.putChar_haltAddress, State.putChar_cpu, State.putChar_running, State.putChar_watchAddress, State.putChar_surface,
    State.putChar_txLog, State.putChar_haltReports, State.putChar_terminated, State.putChar_resets,
    State.putChar_returned, State.putChar_inbox, State.putChar_cpuScript]

/-- The emitted character and the printed one do not interfere (R140: the order of the statements does not
matter). -/
theorem State.emit_putChar (s : State) (w v : Byte) : (s.emit w).putChar v = (s.putChar v).emit w := by
  have ha : (s.emit w).advance v = (s.advance v).emit w := by
    by_cases h : v = newlineByte s.config
    · rw [State.advance_newline h, State.advance_newline (s := s.emit w) h]; rfl
    · by_cases hx : s.cursorX + 1 > s.config.width - 1
      · rw [State.advance_wrap h hx, State.advance_wrap (s := s.emit w) h hx]; rfl
      · rw [State.advance_glyph h hx, State.advance_glyph (s := s.emit w) h hx]; rfl
  have hb : ∀ u : State, (u.emit w).scrollIfBelow = u.scrollIfBelow.emit w := by
    intro u
    by_cases h : u.cursorY > u.config.height - 1
    · rw [State.scrollIfBelow_below h, State.scrollIfBelow_below (s := u.emit w) h]; rfl
    · rw [State.scrollIfBelow_inside h, State.scrollIfBelow_inside (s := u.emit w) h]
  show ((s.emit w).advance v).scrollIfBelow.markUpdated = _
  rw [ha, hb]; rfl

/-- The cell a console address selects is a cell of the grid (R96, R160). -/
theorem cell_in_grid {c : Config} (hc : configWellFormed c = true) {addr : Address}
    (h : writeTakenBy c addr = some .conWr) : cellColumn c addr < c.width ∧ cellRow c addr < c.height := by
  obtain ⟨⟨hw, hh⟩, ⟨hb, -⟩, -⟩ := (configWellFormed_iff c).1 hc
  rw [writeTakenBy, writeHandlerAt_regions] at h
  split_ifs at h with h1 <;> try cases h
  refine ⟨Nat.mod_lt _ hw, Nat.div_lt_of_lt_mul ?_⟩
  have : 0 < c.width * c.height := Nat.mul_pos hw hh
  unfold cellOffset
  unfold consoleLast at h1
  omega

end Sys2Proof.Machine
end

