-- ==== Sys2Proof/Laws/Memory.lean ====
section
/-!
SUPPORT. The laws of the byte store: a read after a write, a write's frame, and that every memory operation keeps the
canonical form.
-/

namespace Sys2Proof.Machine

variable (init : List Byte) (m : List Host.Cell) (a k : Nat) (b : Byte)

theorem Memory.listed_list : Memory.listed (Memory.list m a b) k = if k = a then some b else Memory.listed m k := by
  induction m with
  | nil => simp [Memory.list, Memory.listed, eq_comm]
  | cons c m ih =>
    obtain ⟨q, v⟩ := c
    unfold Memory.list
    split_ifs <;> simp_all [Memory.listed] <;> grind

theorem Memory.listed_unlist : Memory.listed (Memory.unlist m a) k = if k = a then none else Memory.listed m k := by
  induction m with
  | nil => simp [Memory.unlist, Memory.listed]
  | cons c m ih =>
    obtain ⟨q, v⟩ := c
    simp only [Memory.unlist, List.filter_cons] at ih ⊢
    by_cases h : q = a <;> simp_all [Memory.listed] <;> grind

/-- A store changes the byte at its own address and no other (R123, R132). -/
theorem Memory.read_write : Memory.read init (Memory.write init m a b) k = if k = a then b else Memory.read init m k := by
  unfold Memory.write Memory.read
  split
  · rename_i h
    rw [Memory.listed_unlist]
    split_ifs with hk
    · subst hk; simp [h]
    · rfl
  · rw [Memory.listed_list]
    split_ifs <;> rfl

theorem Memory.mem_list {c : Host.Cell} (h : c ∈ Memory.list m a b) : c = (a, b) ∨ c ∈ m := by
  induction m with
  | nil => simpa [Memory.list] using h
  | cons d m ih =>
    obtain ⟨q, v⟩ := d
    unfold Memory.list at h
    split_ifs at h <;> simp only [List.mem_cons] at h ⊢ <;> tauto

theorem Memory.pairwise_list (h : m.Pairwise fun p q => p.1 < q.1) :
    (Memory.list m a b).Pairwise fun p q => p.1 < q.1 := by
  induction m with
  | nil => simp [Memory.list]
  | cons d m ih =>
    obtain ⟨q, v⟩ := d
    rw [List.pairwise_cons] at h
    unfold Memory.list
    split_ifs with h1 h2
    · refine List.pairwise_cons.2 ⟨fun c hc => ?_, List.pairwise_cons.2 h⟩
      rcases List.mem_cons.1 hc with rfl | hc
      · exact h1
      · exact h1.trans (h.1 c hc)
    · subst h2; exact List.pairwise_cons.2 h
    · refine List.pairwise_cons.2 ⟨fun c hc => ?_, ih h.2⟩
      rcases Memory.mem_list m a b hc with rfl | hc
      · show q < a; omega
      · exact h.1 c hc

theorem Memory.mem_write {c : Host.Cell} (h : c ∈ Memory.write init m a b) : c = (a, b) ∨ c ∈ m := by
  unfold Memory.write at h
  split at h
  · exact .inr (List.mem_of_mem_filter h)
  · exact Memory.mem_list m a b h

/-- Every memory operation keeps the canonical form. -/
theorem Memory.wf_write (ha : a ≤ lastAddress) (h : Memory.wf init m) : Memory.wf init (Memory.write init m a b) := by
  refine ⟨?_, fun c hc => ?_⟩
  · unfold Memory.write
    split
    · exact h.1.filter _
    · exact Memory.pairwise_list m a b h.1
  · by_cases hb : b = Memory.initByte init a
    · unfold Memory.write at hc
      rw [if_pos hb] at hc
      exact h.2 c (List.mem_of_mem_filter hc)
    · rcases Memory.mem_write init m a b hc with rfl | hc
      · exact ⟨ha, hb⟩
      · exact h.2 c hc

theorem Memory.wf_nil : Memory.wf init [] := by simp [Memory.wf]

/-- The reset state's memory is in canonical form. -/
theorem State.reset_memory_wf : Memory.wf State.reset.config.ramInit State.reset.ram := Memory.wf_nil _

/-- Two canonical memories that read alike are the same list. -/
theorem Memory.ext {m n : List Host.Cell} (hm : Memory.wf init m) (hn : Memory.wf init n)
    (h : ∀ a, Memory.read init m a = Memory.read init n a) : m = n := by
  have key : ∀ {m : List Host.Cell}, Memory.wf init m → ∀ a b,
      (a, b) ∈ m ↔ (Memory.read init m a = b ∧ b ≠ Memory.initByte init a) := by
    intro m hm
    induction m with
    | nil => intro a b; simp [Memory.read, Memory.listed]; grind
    | cons c m ih =>
      obtain ⟨q, v⟩ := c
      intro a b
      have hp := List.pairwise_cons.1 hm.1
      have hv := hm.2 (q, v) (List.mem_cons_self ..)
      have hm' : Memory.wf init m := ⟨hp.2, fun c hc => hm.2 c (List.mem_cons_of_mem _ hc)⟩
      rw [List.mem_cons]
      by_cases hq : q = a
      · subst hq
        have : (q, b) ∉ m := fun hc => lt_irrefl q (hp.1 (q, b) hc)
        simp [Memory.read, Memory.listed, this]
        grind
      · have : Memory.read init ((q, v) :: m) a = Memory.read init m a := by
          simp [Memory.read, Memory.listed, hq]
        rw [this, ← ih hm' a b]
        simp [Ne.symm hq]
  have hmem : ∀ c, c ∈ m ↔ c ∈ n := fun c => by rw [key hm c.1 c.2, key hn c.1 c.2, h]
  have hs : ∀ {l : List Host.Cell}, Memory.wf init l → l.Nodup := fun hl =>
    hl.1.imp fun hlt he => by subst he; exact lt_irrefl _ hlt
  exact ((List.perm_ext_iff_of_nodup (hs hm) (hs hn)).2 hmem).eq_of_pairwise
    (fun p q _ _ h1 h2 => absurd h1 (by omega)) hm.1 hn.1

variable (s : State)

/-- `RAM[k]` after `RAM[a] <- b`. -/
@[simp] theorem State.storeByte_ramByte : (s.storeByte a b).ramByte k = if k = a then b else s.ramByte k :=
  Memory.read_write _ _ _ _ _

/-- `ramByte` depends on the configuration and the byte store alone. -/
theorem State.ramByte_congr {s t : State} (hc : t.config = s.config) (hr : t.ram = s.ram) (a : Nat) :
    t.ramByte a = s.ramByte a := by
  simp [State.ramByte, hc, hr]

end Sys2Proof.Machine
end

