-- ==== Sys2Proof/Laws/Invariant.lean ====
section
/-!
SUPPORT. The shared operations keep the invariant of Safety.lean (10_state.md R39).
-/

namespace Sys2Proof.Machine

/-- The console's part of the invariant. -/
theorem State.Inv.console {s : State} (h : s.Inv) : s.ConsoleOk where
  grid := ⟨h.rows, h.columns, h.colours⟩
  width := ((configWellFormed_iff _).1 s.config_wellFormed).1.1
  cursorX := h.cursorX
  cursorY := h.cursorY

/-- The invariant reads the configuration, the cursor, the grid, the surface and the byte store alone. -/
theorem State.Inv.congr {s t : State} (h : s.Inv) (hc : t.config = s.config) (hx : t.cursorX = s.cursorX)
    (hy : t.cursorY = s.cursorY) (hg : t.grid = s.grid) (hr : t.ram = s.ram) (hs : t.surface = s.surface) :
    t.Inv := by
  constructor <;> simp only [hc, hx, hy, hg, hr, hs]
  exacts [h.cursorX, h.cursorY, h.rows, h.columns, h.surfaceRows, h.surfaceColumns, h.colours, h.memory, h.shadow]

/-- A console change that keeps the console's part, and leaves the rest, keeps the invariant. -/
theorem State.Inv.ofConsole {s t : State} (h : s.Inv) (hc : t.config = s.config) (hr : t.ram = s.ram)
    (hs : t.surface = s.surface) (ht : t.ConsoleOk) : t.Inv where
  cursorX := ht.cursorX
  cursorY := ht.cursorY
  rows := ht.grid.rows
  columns := ht.grid.columns
  surfaceRows := by rw [hc, hs]; exact h.surfaceRows
  surfaceColumns := by rw [hc, hs]; exact h.surfaceColumns
  colours := ht.grid.colours
  memory := by rw [hc, hr]; exact h.memory
  shadow := by rw [hc, hr]; exact h.shadow

theorem State.Inv.putChar {s : State} (h : s.Inv) (v : Byte) : (s.putChar v).Inv :=
  h.ofConsole (by simp) (by simp) (by simp) (State.putChar_ok h.console v)

theorem State.Inv.scroll {s : State} (h : s.Inv) : s.scroll.Inv :=
  h.ofConsole (by simp) (by simp) (by simp) ⟨Grid.scrolled_ok h.console.grid, h.console.width, h.cursorX, h.cursorY⟩

theorem State.Inv.settle {s : State} (h : s.Inv) (d : Option Byte) (r : Bool) : (s.settle d r).Inv :=
  h.congr (by simp) (by simp) (by simp) (by simp) (by simp) (by simp)

theorem State.Inv.requestHalt {s : State} (h : s.Inv) : s.requestHalt.Inv :=
  h.congr (by simp) (by simp) (by simp) (by simp) (by simp) (by simp)

/-- A present hands the surface a grid of its own size (R35, R165, R203). -/
theorem State.Inv.present {s : State} (h : s.Inv) (ok : Bool) : (s.present ok).Inv := by
  unfold State.present
  split
  · exact { h with surfaceRows := h.rows, surfaceColumns := h.columns }
  · exact h

theorem State.Inv.uartWrite {s : State} (h : s.Inv) (v : Byte) (pc : Address) : (s.uartWrite v pc).Inv :=
  have he : (s.emit v).Inv := h.congr rfl rfl rfl rfl rfl rfl
  (he.putChar v).settle _ _

theorem State.Inv.uartRead {s : State} (h : s.Inv) (pc : Address) : (s.uartRead pc).Inv :=
  have he : (s.setPending 0).Inv := h.congr rfl rfl rfl rfl rfl rfl
  he.settle _ _

theorem State.Inv.conWrite {s : State} (h : s.Inv) (addr : Address) (v : Byte) : (s.conWrite addr v).Inv :=
  have he : (s.writeCell addr v).Inv :=
    h.ofConsole rfl rfl rfl ⟨Grid.put_ok _ _ v h.console.grid, h.console.width, h.cursorX, h.cursorY⟩
  he.settle _ _

theorem State.Inv.ramWrite {s : State} (h : s.Inv) {addr : Address} (ha : writeTakenBy s.config addr = none)
    (b : Byte) : (s.ramWrite addr b).Inv := by
  have he : (s.storeByte addr.toNat b).Inv :=
    { cursorX := h.cursorX, cursorY := h.cursorY, rows := h.rows, columns := h.columns
      surfaceRows := h.surfaceRows, surfaceColumns := h.surfaceColumns, colours := h.colours
      memory := Memory.wf_write _ _ _ _ (by have := addr.isLt; simp [lastAddress]; omega) h.memory
      shadow := fun cell hc => by
        rcases Memory.mem_write _ _ _ _ hc with rfl | hc
        · exact ha
        · exact h.shadow cell hc }
  exact he.settle _ _

theorem State.Inv.busRead {s : State} (h : s.Inv) (addr pc : Address) : (s.busRead addr pc).Inv := by
  unfold State.busRead
  split
  · exact h.uartRead pc
  · exact h.settle _ _

theorem State.Inv.busWrite {s : State} (h : s.Inv) (addr : Address) (b : Byte) (pc : Address) :
    (s.busWrite addr b pc).Inv := by
  unfold State.busWrite
  split
  · exact h.uartWrite b pc
  · exact h.conWrite addr b
  · rename_i hn
    exact h.ramWrite hn b

theorem State.Inv.transact {s : State} (h : s.Inv) (t : Transaction) : (s.transact t).Inv := by
  unfold State.transact
  split
  · exact h.busWrite _ _ _
  · exact h.busRead _ _

theorem State.Inv.transactAll {s : State} (h : s.Inv) (ts : List Transaction) : (s.transactAll ts).Inv := by
  unfold State.transactAll
  induction ts generalizing s with
  | nil => exact h
  | cons t ts ih => exact ih (h.transact t)

theorem State.Inv.perform (r : CpuRun) {s : State} (h : s.Inv) : (State.perform r s).Inv := by
  induction r generalizing s with
  | done next => exact h.congr rfl rfl rfl rfl rfl rfl
  | read a pc k ih => exact ih _ (h.busRead a pc)
  | write a b pc r ih => exact ih (h.busWrite a b pc)

theorem State.Inv.stepCpu {s : State} (h : s.Inv) : s.stepCpu.Inv := by
  have hd : s.dropScript.Inv := h.congr rfl rfl rfl rfl rfl rfl
  unfold State.stepCpu State.watchCheck
  split
  · exact (State.Inv.perform _ hd).requestHalt
  · exact State.Inv.perform _ hd

/-- Every machine that construction makes meets the invariant (R260). -/
theorem State.constructed_inv (c : WellFormedConfig) (n : Nat) (q : List Request) (p : List ScriptStep) :
    (State.constructed c n q p).Inv where
  cursorX := ((configWellFormed_iff _).1 c.wellFormed).1.1
  cursorY := ((configWellFormed_iff _).1 c.wellFormed).1.2
  rows := (Grid.blank_ok c.toConfig).rows
  columns := (Grid.blank_ok c.toConfig).columns
  surfaceRows := (Grid.ofCells_size ..).1
  surfaceColumns := (Grid.ofCells_size ..).2
  colours := (Grid.blank_ok c.toConfig).colours
  memory := Memory.wf_nil _
  shadow := by simp [State.constructed]

/-- A well-formed configuration makes a machine. -/
theorem construct_wellFormed {c : Config} (h : configWellFormed c = true) (n : Nat) (q : List Request)
    (p : List ScriptStep) : construct c n q p = .next (State.constructed ⟨c, h⟩ n q p) := dif_pos h

/-- An ill-formed configuration makes none (R125). -/
theorem construct_illFormed {c : Config} (h : ¬ configWellFormed c = true) (n : Nat) (q : List Request)
    (p : List ScriptStep) : construct c n q p = .refused (configRefusal c) := dif_neg h

/-- RESET makes the machine again, from the configuration it has (R260). -/
theorem exec_reset (s : State) :
    exec .reset s = .next (State.constructed s.setup (s.resets + 1) s.inbox s.cpuScript) :=
  construct_wellFormed s.config_wellFormed _ _ _

end Sys2Proof.Machine
end

