-- ==== Sys2Proof/Laws/Dispatch.lean ====
section
/-!
SUPPORT. What a transaction, a load and a turn do, said once: the decode of a transaction, a transaction as an
operation, RUN's loop.
-/

namespace Sys2Proof.Machine

@[simp] theorem Transaction.write_isWrite (a : Address) (b : Byte) (pc : Address) :
    (Transaction.write a b pc).isWrite = true := by
  simp [Transaction.write, Transaction.isWrite, busWord, BitVec.msb_cons]

@[simp] theorem Transaction.write_addr (a : Address) (b : Byte) (pc : Address) :
    (Transaction.write a b pc).addr = a := by
  simp [Transaction.write, Transaction.addr, busWord]

@[simp] theorem Transaction.read_isWrite (a pc : Address) : (Transaction.read a pc).isWrite = false := by
  simp [Transaction.read, Transaction.isWrite, busWord, BitVec.msb_cons]

@[simp] theorem Transaction.read_addr (a pc : Address) : (Transaction.read a pc).addr = a := by
  simp [Transaction.read, Transaction.addr, busWord]

/-- A word is its direction and its address. -/
theorem busWord_eq (t : Transaction) : busWord t.isWrite t.addr = t.word := by
  unfold busWord Transaction.isWrite Transaction.addr
  exact BitVec.cons_msb_setWidth t.word

/-- Every transaction completes, and is `transact` (R99). -/
theorem exec_decode (s : State) (t : Transaction) : exec (decode s.config t) s = .next (s.transact t) := by
  unfold decode State.transact
  split
  · unfold decodeWrite State.busWrite
    split <;> simp_all [exec, execUartWr, execConWr, execRamWr]
  · unfold decodeRead State.busRead
    split <;> simp_all [exec, execUartRd, execRamRd]

/-- Transactions one after the other complete. -/
theorem execAll_decode (ts : List Transaction) (s : State) :
    execAll (ts.map (decode s.config)) s = .next (s.transactAll ts) := by
  induction ts generalizing s with
  | nil => rfl
  | cons t ts ih =>
    have h := ih (s.transact t)
    rw [State.transact_config] at h
    simp only [List.map_cons, execAll, exec_decode]
    exact h

/-- Operations in two stretches. -/
theorem execAll_append (is js : List Instr) (s : State) :
    execAll (is ++ js) s = match execAll is s with
      | .next t => execAll js t
      | .fault r => .fault r
      | .refused r => .refused r := by
  induction is generalizing s with
  | nil => rfl
  | cons i is ih =>
    simp only [List.cons_append, execAll]
    cases exec i s <;> simp [ih]

/-- While RUNNING, requests that all wait stay where they are. -/
theorem takeWhileRunning_waiting (q : List Request) (h : ∀ r ∈ q, waitsForHalt r = true) :
    takeWhileRunning q = (none, q) := by
  induction q with
  | nil => rfl
  | cons r q ih =>
    have hr : waitsForHalt r = true := h r (List.mem_cons_self ..)
    have hq := ih fun r' h' => h r' (List.mem_cons_of_mem _ h')
    simp [takeWhileRunning, hr, hq]

/-- A request at the head is taken unless it waits for HALTED. -/
theorem takeRequest_cons (run : Bool) (r : Request) (q : List Request)
    (h : run = true → waitsForHalt r = false) : takeRequest run (r :: q) = (some r, q) := by
  cases run with
  | false => rfl
  | true => simp [takeRequest, takeWhileRunning, h rfl]

/-- A placed transaction is the next operation, on the machine HALTED and not terminated: what the host's `withFetchWord` rests
on. -/
theorem step_withFetchWord (s : State) (n w : Nat) :
    step (s.withFetchWord n w) =
      exec (decode s.config ⟨BitVec.ofNat 17 w, 0, 0⟩) { s with terminated := false, running := false } := by
  simp only [step, State.withFetchWord, State.request, State.turn]
  rw [takeRequest_cons _ _ _ (by simp)]
  rfl

end Sys2Proof.Machine
end

