-- ==== Sys2Proof/Laws/PerInstr.lean ====
section
/-!
SUPPORT. Per operation: it has a transaction word exactly when it is one of the bus operations, and that word's
bit 16 says whether it writes (30_encoding.md R90, R92).
-/

namespace Sys2Proof.Laws.Encoded

open Sys2Proof

/-- The operations that arrive on the bus port, with their direction: `some true` is a write (R90, R93). -/
def direction : Instr → Option Bool
  | .uartWr _ _ | .conWr _ _ _ | .ramWr _ _ _ | .busWr _ _ _ => some true
  | .uartRd _ | .ramRd _ _ | .busRd _ _ => some false
  | .inputPush _ | .setHalt _ | .present _ | .reset | .putchar _ | .scroll | .haltCheck _ | .requestHalt
  | .load _ _ | .watch _ | .step | .run | .resetVectorLoad | .cancel | .enterAt _ | .terminate
  | .textInput _ => none

/-- The operation's encoding exists exactly for a bus operation, and carries its direction in bit 16. -/
def Statement (i : Instr) : Prop := ∀ c : Config, (encode c i).map Transaction.isWrite = direction i

theorem uartWr (value : Byte) (pc : Address) : Statement (.uartWr value pc) := fun _ => by simp [encode, direction]
theorem uartRd (pc : Address) : Statement (.uartRd pc) := fun _ => by simp [encode, direction]
theorem conWr (addr : Address) (value : Byte) (pc : Address) : Statement (.conWr addr value pc) :=
  fun _ => by simp [encode, direction]
theorem ramWr (addr : Address) (wdata : Byte) (pc : Address) : Statement (.ramWr addr wdata pc) :=
  fun _ => by simp [encode, direction]
theorem ramRd (addr : Address) (pc : Address) : Statement (.ramRd addr pc) := fun _ => by simp [encode, direction]
theorem busRd (addr : Address) (pc : Address) : Statement (.busRd addr pc) := fun _ => by simp [encode, direction]
theorem busWr (addr : Address) (wdata : Byte) (pc : Address) : Statement (.busWr addr wdata pc) :=
  fun _ => by simp [encode, direction]
theorem inputPush (c : Byte) : Statement (.inputPush c) := fun _ => rfl
theorem setHalt (h : Option Nat) : Statement (.setHalt h) := fun _ => rfl
theorem present (ok : Bool) : Statement (.present ok) := fun _ => rfl
theorem reset : Statement .reset := fun _ => rfl
theorem putchar (value : Byte) : Statement (.putchar value) := fun _ => rfl
theorem scroll : Statement .scroll := fun _ => rfl
theorem haltCheck (pc : Address) : Statement (.haltCheck pc) := fun _ => rfl
theorem requestHalt : Statement .requestHalt := fun _ => rfl
theorem load (bytes : Option (List Byte)) (startAddress : Nat) : Statement (.load bytes startAddress) := fun _ => rfl
theorem watch (address : Nat) : Statement (.watch address) := fun _ => rfl
theorem step : Statement .step := fun _ => rfl
theorem run : Statement .run := fun _ => rfl
theorem resetVectorLoad : Statement .resetVectorLoad := fun _ => rfl
theorem cancel : Statement .cancel := fun _ => rfl
theorem enterAt (a : Address) : Statement (.enterAt a) := fun _ => rfl
theorem terminate : Statement .terminate := fun _ => rfl
theorem textInput (s : List Nat) : Statement (.textInput s) := fun _ => rfl

end Sys2Proof.Laws.Encoded
end

