-- ==== Sys2Proof/Tests/Slice0.lean ====
section
/-!
SUPPORT. Tests. Part 1: ill-formed terms, one for each check. Part 2: words written out from the spec's decode table.
Part 3: the vectors of 95_test_vectors.md, one step each. Part 4: states and operands that meet the hypotheses
of each statement of Certificates/Slice0/Obligations.lean.
-/

namespace Sys2Proof.Tests

open Sys2Proof.Machine

/-- A field of the next state, when there is one. -/
def after {α : Type} (f : State → α) : Result → Option α
  | .next t => some (f t)
  | .fault _ => none
  | .refused _ => none

/-- Why an operation was refused, when it was. -/
def refusal : Result → Option Refusal
  | .refused r => some r
  | .next _ => none
  | .fault _ => none

/-- The reference configuration with known reset contents: 0x5A, 0x5B, and 0 from address 2 on. -/
def known : WellFormedConfig := ⟨{ Config.reference with ramInit := [0x5A, 0x5B] }, by decide⟩

/-- The reset state of that configuration. -/
def base : State := { State.reset with setup := known }

/-- The reset state with the cursor elsewhere. -/
def cursorAt (x y : Nat) : State := { base with cursorX := x, cursorY := y }

/-- A configuration of three columns and two rows, for the vectors whose point is a whole grid. -/
def small : Config := { Config.reference with width := 3, height := 2, ramInit := [] }

/-- A state of the small configuration: the rows as glyph codes, and the cursor. -/
def smallAt (r0 r1 : List Byte) (x y : Nat) : State :=
  { base with setup := ⟨small, by decide⟩, grid := [r0.map Cell.ofGlyph, r1.map Cell.ofGlyph], cursorX := x, cursorY := y }

/-- The glyph codes of a grid. -/
def glyphs (s : State) : List (List Byte) := s.grid.map (·.map Cell.glyph)

/-! ### Part 1: ill-formed terms -/

theorem test_wellFormed_refuses_conWr_above_console : (Instr.conWr 0xE7D0 0 0).wellFormed Config.reference = false := by decide
theorem test_wellFormed_refuses_ramWr_in_console : (Instr.ramWr 0xE000 0 0).wellFormed Config.reference = false := by decide
theorem test_wellFormed_refuses_ramWr_at_uart : (Instr.ramWr 0xEFFF 0 0).wellFormed Config.reference = false := by decide
theorem test_wellFormed_refuses_ramRd_at_uart : (Instr.ramRd 0xEFFF 0).wellFormed Config.reference = false := by decide
theorem test_wellFormed_refuses_setHalt_out_of_range : (Instr.setHalt (some 0x10000)).wellFormed Config.reference = false := by decide
theorem test_wellFormed_refuses_watch_out_of_range : (Instr.watch 0x10000).wellFormed Config.reference = false := by decide
theorem test_wellFormed_refuses_load_past_end : (Instr.load (some [1, 2, 3]) 0xFFFE).wellFormed Config.reference = false := by decide
theorem test_wellFormed_refuses_textInput_above_byte : (Instr.textInput [0x20AC]).wellFormed Config.reference = false := by decide
theorem test_config_refuses_no_columns : configWellFormed { Config.reference with width := 0 } = false := by decide
theorem test_config_refuses_no_rows : configWellFormed { Config.reference with height := 0 } = false := by decide
theorem test_config_refuses_console_past_end : configWellFormed { Config.reference with consoleBase := 0xFFFF } = false := by decide
theorem test_config_refuses_uart_out_of_range : configWellFormed { Config.reference with uartAddr := 0x10000 } = false := by decide
theorem test_config_refuses_vector_at_last_address : configWellFormed { Config.reference with resetVector := 0xFFFF } = false := by decide
theorem test_config_refuses_uart_in_console : configWellFormed { Config.reference with uartAddr := 0xE7CF } = false := by decide
theorem test_table_refuses_reversed_bounds : tableWellFormed [⟨5, 4, some .uartRd, none⟩] = false := by decide
theorem test_table_admits_one_address_registered_per_direction :
    tableWellFormed [⟨5, 5, some .uartRd, none⟩, ⟨5, 5, none, some .uartWr⟩] = true := by decide
theorem test_decodeBits_refuses_eighteen_bits :
    (match decodeBits Config.reference 0x20000 0 0 with | .error e => some e | .ok _ => none) = some .wordTooWide := by decide

/-! ### Part 2: decoding, from the rows of R93 -/

theorem test_decode_uartWr_bits : decode Config.reference ⟨0b11110111111111111, 0x41, 0x0300⟩ = .uartWr 0x41 0x0300 := by decide
theorem test_decode_uartRd_bits : decode Config.reference ⟨0b01110111111111111, 0, 0x0300⟩ = .uartRd 0x0300 := by decide
/-- TA5: 0xE3FF is the last word of the first CON_WR row. -/
theorem test_decode_conWr_bits : decode Config.reference ⟨0b11110001111111111, 9, 0⟩ = .conWr 0xE3FF 9 0 := by decide
/-- TA6. -/
theorem test_decode_conWr_second_row : decode Config.reference ⟨0b11110010000000000, 9, 0⟩ = .conWr 0xE400 9 0 := by decide
/-- TA9: inside the console's 2 KiB block, but not console. -/
theorem test_decode_ramWr_bits : decode Config.reference ⟨0b11110011111111111, 9, 0⟩ = .ramWr 0xE7FF 9 0 := by decide
/-- TA17: 0xEFFF with bit 15 cleared is no alias. -/
theorem test_decode_no_alias : decode Config.reference ⟨0b10110111111111111, 9, 0⟩ = .ramWr 0x6FFF 9 0 := by decide
/-- TA10. -/
theorem test_decode_ramRd_bits : decode Config.reference ⟨0b01110000000000000, 0, 0⟩ = .ramRd 0xE000 0 := by decide
theorem test_table_word_uartWr : decodeTableWord 24 0x1EFFF = some (.uartWr 0 0) := by decide
theorem test_table_word_conWr : decodeTableWord 24 0x1E7C0 = some (.conWr 0xE7C0 0 0) := by decide
theorem test_table_word_ramRd : decodeTableWord 24 0x00000 = some (.ramRd 0 0) := by decide
/-- The reset machine runs a placed word as its first operation. -/
theorem test_first_step_runs_the_word :
    step (State.reset.withFetchWord 24 0x1EFFF) = exec (.uartWr 0 0) State.reset := step_withFetchWord _ _ _
theorem test_encode_conWr : encode Config.reference (.conWr 0xE7CF 0x5A 0) = some ⟨0x1E7CF, 0x5A, 0⟩ := by decide
theorem test_command_break : Command.operation (.breakAt 0xF010) = .watch 0xF010 := by decide

/-! ### Part 3: the vectors -/

/-- TB1 and TB7: RAM_RD returns the reset contents, also where only writes are taken. -/
theorem test_ramRd_initial : after State.returned (exec (.ramRd 0x0001 0) base) = some (some ⟨some 0x5B, false⟩) := by decide
theorem test_ramRd_shadow : after State.returned (exec (.ramRd 0xE000 0) { base with grid := [] }) = some (some ⟨some 0, false⟩) := by decide
/-- TB2: `updated` stays false. -/
theorem test_ramWr_stores : after (fun t => (t.ramByte 0x0200, t.updated)) (exec (.ramWr 0x0200 0xFF 0) base) = some (0xFF, false) := by decide
/-- TB4: the neighbour is untouched. -/
theorem test_ramWr_neighbour : after (·.ramByte 0x0001) (exec (.ramWr 0x0000 0x11 0) base) = some 0x5B := by decide
/-- Writing back the reset contents leaves no entry. -/
theorem test_ramWr_canonical : after State.ram (exec (.ramWr 0x0001 0x5B 0) { base with ram := [(1, 3), (4, 4)] }) = some [(4, 4)] := by decide
/-- TB8: a read of the UART is the pending input. -/
theorem test_busRd_uart : after State.returned (exec (.busRd 0xEFFF 0) { base with pendingInput := 0x61 }) = some (some ⟨some 0x61, false⟩) := by decide
theorem test_busRd_console_is_ram : after State.pendingInput (exec (.busRd 0xE000 0) { base with pendingInput := 0x61 }) = some 0x61 := by decide
/-- S9. -/
theorem test_busWr_console : after (fun t => Grid.cell? t.grid 0 0) (exec (.busWr 0xE000 0x41 0) base) = some (some ⟨0x41, .white, .black⟩) := by decide
/-- TB5. -/
theorem test_busWr_above_console : after (fun t => (t.ramByte 0xE7D0, t.updated)) (exec (.busWr 0xE7D0 0x77 0) base) = some (0x77, false) := by decide
/-- TU7. -/
theorem test_uartWr_prints : after (fun t => (t.txLog, t.cursorX, t.cursorY, t.updated)) (exec (.uartWr 0x41 0) base) = some ([0x41], 1, 0, true) := by decide
/-- TU8, with the machine RUNNING: the halt. -/
theorem test_uartWr_halts :
    after (fun t => (t.running, t.haltReports, t.txLog)) (exec (.uartWr 0x41 0xF010) { base with haltAddress := some 0xF010, running := true })
      = some (false, 1, [0x41]) := by decide
/-- TU11. -/
theorem test_uartRd_halts :
    after (fun t => (t.returned, t.pendingInput)) (exec (.uartRd 0xF010) { base with haltAddress := some 0xF010, pendingInput := 0x31 })
      = some (some ⟨some 0x31, true⟩, 0) := by decide
/-- TU12: no halt address matches no program counter. -/
theorem test_uartRd_none : after State.returned (exec (.uartRd 0) base) = some (some ⟨some 0, false⟩) := by decide
/-- TU3. -/
theorem test_inputPush_overwrites : after State.pendingInput (exec (.inputPush 0x62) { base with pendingInput := 0x61 }) = some 0x62 := by decide
theorem test_setHalt_sets : after State.haltAddress (exec (.setHalt (some 0xFFFF)) base) = some (some 0xFFFF) := by decide
theorem test_setHalt_refuses : refusal (exec (.setHalt (some 0x10000)) base) = some .addressRange := by decide
/-- TU13, TU9. -/
theorem test_haltCheck_zero : after State.returned (exec (.haltCheck 0) { base with haltAddress := some 0 }) = some (some ⟨none, true⟩) := by decide
theorem test_haltCheck_other : after State.returned (exec (.haltCheck 0xF011) { base with haltAddress := some 0xF010 }) = some (some ⟨none, false⟩) := by decide
theorem test_requestHalt_running : after (fun t => (t.running, t.haltReports)) (exec .requestHalt { base with running := true, haltReports := 4 }) = some (false, 5) := by decide
theorem test_requestHalt_halted : after State.haltReports (exec .requestHalt { base with haltReports := 4 }) = some 4 := by decide
/-- TC2: the last cell, no scroll, the cursor stays. -/
theorem test_conWr_last_cell : after (fun t => (Grid.cell? t.grid 79 24, t.cursorX, t.cursorY)) (exec (.conWr 0xE7CF 0x5A 0) base) = some (some ⟨0x5A, .white, .black⟩, 0, 0) := by decide
/-- TC3: the newline byte is a glyph on this path. -/
theorem test_conWr_newline_is_a_glyph : after (fun t => Grid.cell? t.grid 0 1) (exec (.conWr 0xE050 0x0D 0) base) = some (some ⟨0x0D, .white, .black⟩) := by decide
/-- TP3: the eager wrap. -/
theorem test_putchar_wraps : after (fun t => (t.cursorX, t.cursorY, Grid.cell? t.grid 79 0)) (exec (.putchar 0x2E) (cursorAt 79 0)) = some (0, 1, some ⟨0x2E, .white, .black⟩) := by decide
/-- TP5 on three columns: the last cell's glyph is scrolled up at once. -/
theorem test_putchar_last_cell : after (fun t => (glyphs t, t.cursorX, t.cursorY)) (exec (.putchar 0x43) (smallAt [1, 2, 3] [4, 5, 6] 2 1)) = some ([[4, 5, 0x43], [0, 0, 0]], 0, 1) := by decide
theorem test_scroll_rows : after (fun t => (glyphs t, t.cursorY, t.updated)) (exec .scroll (smallAt [1, 2, 3] [4, 5, 6] 2 1)) = some ([[4, 5, 6], [0, 0, 0]], 1, false) := by decide
/-- R163's corner case H = 1. -/
theorem test_scroll_one_row : after glyphs (exec .scroll { base with setup := ⟨{ small with height := 1 }, by decide⟩, grid := [[Cell.ofGlyph 1, Cell.ofGlyph 2, Cell.ofGlyph 3]] }) = some [[0, 0, 0]] := by decide
/-- TV2, TV3. -/
theorem test_present_copies : after (fun t => (t.surface.map (·.map Cell.glyph), t.updated)) (exec (.present true) { smallAt [1, 2, 3] [4, 5, 6] 0 0 with updated := true }) = some ([[1, 2, 3], [4, 5, 6]], false) := by decide
/-- The surface has the console's size before any present (R35, R203). -/
theorem test_surface_size_at_reset : State.reset.surface.length = 25 ∧ ∀ row ∈ State.reset.surface, row.length = 80 := Grid.ofCells_size ..
theorem test_present_failed : after State.updated (exec (.present false) { base with updated := true }) = some true := by decide
theorem test_reset_values : after (fun t => (t.running, t.pendingInput, t.cursorX, t.txLog)) (exec .reset { base with running := true, pendingInput := 3, cursorX := 9, txLog := [1] }) = some (false, 0, 0, []) := by decide
theorem test_construct_refuses_overlap : refusal (construct { small with uartAddr := 0xE000 } 0 [] []) = some .regionOverlap := by decide
/-- The invalid address width of R222. -/
theorem test_construct_refuses_width : refusal (construct { small with addrWidth := 15 } 0 [] []) = some .addressRange := by decide
theorem test_construct_reference : construct Config.reference 0 [] [] = .next State.reset := construct_wellFormed (by decide) 0 [] []
/-- M8: the failure is reported, and nothing is loaded. -/
theorem test_load_failure_is_reported : after (fun t => (t.loadFailures, t.ram, t.running)) (exec (.load none 0x0200) base) = some (1, [], false) := by decide
/-- M7. -/
theorem test_load_refused : refusal (exec (.load (some [1, 2, 3]) 0xFFFE) base) = some .addressRange := by decide
/-- P5: a load across the console's boundary. -/
theorem test_load_through_console :
    after (fun t => (t.ramByte 0xDFFF, t.ramByte 0xE000, Grid.cell? t.grid 1 0, t.cursorX)) (exec (.load (some [0xAA, 0x41, 0x42]) 0xDFFF) base)
      = some (0xAA, 0, some ⟨0x42, .white, .black⟩, 0) := by decide
/-- WATCH under HALT_LINKED, and without it. -/
theorem test_watch_linked : after (fun t => (t.watchAddress, t.haltAddress)) (exec (.watch 0xF010) base) = some (some 0xF010, some 0xF010) := by decide
theorem test_watch_unlinked : after (fun t => (t.watchAddress, t.haltAddress)) (exec (.watch 0xF010) { base with setup := ⟨{ small with haltLinked := false }, by decide⟩ }) = some (some 0xF010, none) := by decide
/-- M3: both checks in one step make one report. -/
theorem test_step_reports_once :
    after (fun t => (t.running, t.haltReports, t.cpu.pc))
      (exec .step { base with running := true, haltAddress := some 0x0300, watchAddress := some 0x0303,
                              cpuScript := [⟨[⟨0x1EFFF, 0x2A, 0x0300⟩], 0x0303⟩] }) = some (false, 1, 0x0303) := by decide
/-- M4: a single step onto the watch address reports nothing. -/
theorem test_step_halted_reports_nothing :
    after (fun t => (t.running, t.haltReports)) (exec .step { base with watchAddress := some 0xF010, cpuScript := [⟨[], 0xF010⟩] }) = some (false, 0) := by decide
theorem test_run_starts : after State.running (exec .run base) = some true := by decide
theorem test_run_refused_while_running : refusal (exec .run { base with running := true }) = some .onlyWhileHalted := by decide
/-- M6. -/
theorem test_resetVectorLoad : after (·.cpu.pc) (exec .resetVectorLoad { base with ram := [(0xFFFC, 0x10), (0xFFFD, 0xF0)] }) = some 0xF010 := by decide
/-- M9. -/
theorem test_cancel_silent : after (fun t => (t.running, t.haltReports)) (exec .cancel { base with running := true, haltReports := 3 }) = some (false, 3) := by decide
theorem test_enterAt : after (·.cpu.pc) (exec (.enterAt 0xF000) base) = some 0xF000 := by decide
theorem test_terminate : after (fun t => (t.terminated, t.running)) (exec .terminate { base with running := true }) = some (true, false) := by decide
/-- M10. -/
theorem test_textInput_first : after State.pendingInput (exec (.textInput [0x68, 0x69]) base) = some 0x68 := by decide
theorem test_textInput_refused : refusal (exec (.textInput [0x20AC]) base) = some .inputRange := by decide
/-- M5: a machine RUNNING from the watch address steps away from it. -/
theorem test_loop_leaves_the_watch_address :
    after (fun t => (t.running, t.cpu.pc))
      (step { base with running := true, cpu := ⟨0xF010, 0⟩, watchAddress := some 0xF010, cpuScript := [⟨[], 0xF012⟩],
                        inbox := [.command (.watchAt 5)] }) = some (true, 0xF012) := by decide
/-- A CANCEL behind a command that waits is taken. -/
theorem test_cancel_passes_a_waiting_command :
    after (fun t => (t.running, t.inbox)) (step { base with running := true, inbox := [.command .step, .cancel] })
      = some (false, [.command .step]) := by decide

/-! ### Part 4: witnesses for the hypotheses -/

theorem base_inv : base.Inv := State.constructed_inv known 0 [] []

theorem cursorAt_inv (x y : Nat) (hx : x < 80) (hy : y < 25) : (cursorAt x y).Inv :=
  { cursorX := hx, cursorY := hy, rows := base_inv.rows, columns := base_inv.columns
    surfaceRows := base_inv.surfaceRows, surfaceColumns := base_inv.surfaceColumns, colours := base_inv.colours, memory := base_inv.memory, shadow := base_inv.shadow }

theorem witness_ConsoleAddressesNameCells :
    configWellFormed Config.reference = true ∧ writeTakenBy Config.reference 0xE7CF = some .conWr ∧ 79 < Config.reference.width ∧
      24 < Config.reference.height ∧ cellAddress Config.reference 79 24 = 0xE7CF := by decide
theorem witness_DecodeInvertsEncode :
    configWellFormed Config.reference = true ∧ (Instr.ramRd 0xE7CF 5).selectedByWord = true ∧
      (Instr.ramRd 0xE7CF 5).wellFormed Config.reference = true ∧ encode Config.reference (.ramRd 0xE7CF 5) = some ⟨0x0E7CF, 0, 5⟩ := by decide
theorem witness_EncodeInvertsDecode :
    configWellFormed Config.reference = true ∧ ((⟨0x0EFFF, 0, 5⟩ : Transaction).isWrite = false → (⟨0x0EFFF, 0, 5⟩ : Transaction).wdata = 0) := by decide
theorem witness_DecodeComparesTheWholeAddress :
    writeTakenBy Config.reference 0xE7CF = some .conWr ∧ writeTakenBy Config.reference 0xE000 = some .conWr ∧
      cellColumn Config.reference 0xE7CF ≠ cellColumn Config.reference 0xE000 := by decide
theorem witness_BusReadInvokesHandlerOrRam :
    (⟨0xEFFF, 0xEFFF, some .uartRd, some .uartWr⟩ : Region) ∈ regions base.config ∧
      ∀ r ∈ regions base.config, r.start ≤ (0xE7CF : Address).toNat → (0xE7CF : Address).toNat ≤ r.last → r.onRead = none := by decide
theorem witness_BusWriteInvokesHandlerOrRam :
    (⟨0xE000, 0xE7CF, none, some .conWr⟩ : Region) ∈ regions base.config ∧
      (⟨0xEFFF, 0xEFFF, some .uartRd, some .uartWr⟩ : Region) ∈ regions base.config ∧
      (∀ r ∈ regions base.config, r.start ≤ (0xE7D0 : Address).toNat → (0xE7D0 : Address).toNat ≤ r.last → r.onWrite = none) ∧
      writeTakenBy base.config 0xE7CF ≠ none := by decide
theorem witness_RamReadReturnsTheByte : readTakenBy base.config 0xEFFE = none ∧ ∀ cell ∈ base.ram, cell.1 ≠ (0xEFFE : Address).toNat := by decide
theorem witness_RamWriteStoresOneByte : writeTakenBy base.config 0xE7D0 = none := by decide
theorem witness_RamReadAfterWrite :
    writeTakenBy base.config 0x1234 = none ∧ readTakenBy base.config 0x1234 = none ∧
      ∀ t ∈ ([⟨0x11235, 9, 0⟩, ⟨0x1EFFF, 9, 0⟩, ⟨0x01234, 0, 0⟩] : List Transaction), t.isWrite = true → t.addr ≠ 0x1234 := by decide
theorem witness_UnselectedBusOperationsAreRefused :
    writeTakenBy base.config 0xE000 ≠ none ∧ readTakenBy base.config 0xEFFF ≠ none ∧ writeTakenBy base.config 0xE7D0 ≠ some .conWr := by decide
theorem witness_EveryTransactionCompletes :
    0xE7D0 ≤ (⟨0x1E7D0, 1, 0⟩ : Transaction).addr.toNat ∧ (⟨0x0EFFE, 0, 0⟩ : Transaction).addr.toNat ≤ 0xEFFE := by decide
theorem witness_TransactionFrame : ∃ u, exec (decode base.config ⟨0x1EFFF, 9, 0⟩) base = .next u ∧ writeTakenBy base.config 0xEFFF ≠ none := ⟨_, rfl, by decide⟩
theorem witness_TransactionFrame_read : ∃ u, exec (decode base.config ⟨0x0EFFF, 0, 0⟩) base = .next u ∧ (⟨0x0EFFF, 0, 0⟩ : Transaction).isWrite = false := ⟨_, rfl, by decide⟩
theorem witness_ShadowRamReadsItsResetContents :
    base.Inv ∧ writeTakenBy base.config 0xE7CF ≠ none ∧ readTakenBy base.config 0xE7CF = none := ⟨base_inv, by decide, by decide⟩
theorem witness_HaltCheckComparesProgramCounter :
    ({ base with haltAddress := some 0xFFFF } : State).haltAddress = some 0xFFFF ∧ base.haltAddress ≠ some 0 := by decide
theorem witness_RequestHaltStopsAndReports : ({ base with running := true } : State).running = true ∧ base.running = false := by decide
theorem witness_UartReadDeliversAndClears :
    base.haltAddress ≠ some 0 ∧ ({ base with haltAddress := some 0 } : State).haltAddress = some 0 := by decide
theorem witness_UartDeliversOnce :
    ∀ t ∈ ([⟨0x1EFFF, 9, 0⟩, ⟨0x0EFFE, 0, 0⟩] : List Transaction), t.isWrite = true ∨ readTakenBy base.config t.addr = none := by decide
theorem witness_halted_in_range : base.running = false ∧ 0xFFFF ≤ 0xFFFF ∧ 0xFFFF < 0x10000 := by decide
theorem witness_HaltsDoNotNest : base.running = false ∧ ∃ t, exec .step base = .next t := ⟨rfl, _, rfl⟩
theorem witness_RunStopsOnlyByHaltOrCancel :
    ∃ t, exec .cancel { base with running := true } = .next t ∧ t.running = false := ⟨_, rfl, rfl⟩
theorem witness_OnlyRunStartsRunning : ∃ t, exec .run base = .next t ∧ base.running = false ∧ t.running = true := ⟨_, rfl, rfl, rfl⟩
theorem witness_ConsoleWriteSetsOneCell :
    base.Inv ∧ base.config.consoleBase ≤ (0xE000 : Address).toNat ∧
      (0xE7CF : Address).toNat ≤ base.config.consoleBase + base.config.width * base.config.height - 1 := ⟨base_inv, by decide, by decide⟩
/-- The rows of R164's table: a glyph and a newline, inside and at the ends. -/
theorem witness_PutCharFiveOutcomes :
    (cursorAt 79 24).Inv ∧ (cursorAt 78 24).Inv ∧ (cursorAt 79 23).Inv ∧ (cursorAt 5 24).Inv ∧ (cursorAt 5 3).Inv :=
  ⟨cursorAt_inv _ _ (by decide) (by decide), cursorAt_inv _ _ (by decide) (by decide), cursorAt_inv _ _ (by decide) (by decide),
    cursorAt_inv _ _ (by decide) (by decide), cursorAt_inv _ _ (by decide) (by decide)⟩
theorem witness_ScrollMovesRowsUp : base.Inv ∧ 79 < base.config.width ∧ 23 + 1 < base.config.height := ⟨base_inv, by decide, by decide⟩
theorem witness_FullRowOfGlyphsAdvancesOneRow :
    (cursorAt 5 24).Inv ∧ (List.replicate 80 (0x2E : Byte)).length = (cursorAt 5 24).config.width ∧
      ∀ v ∈ List.replicate 80 (0x2E : Byte), v ≠ newlineByte (cursorAt 5 24).config :=
  ⟨cursorAt_inv _ _ (by decide) (by decide), by decide, fun v hv => by rw [List.eq_of_mem_replicate hv]; decide⟩
theorem witness_PresentCopiesADirtyGrid : ({ base with updated := true } : State).updated = true ∧ base.updated = false := by decide
theorem witness_OnlyPresentClearsTheDirtyFlag :
    ∃ t, exec (.present true) { base with updated := true } = .next t ∧ t.updated = false := ⟨_, rfl, rfl⟩
theorem witness_GridChangesAreMarkedDirty :
    ∃ t, exec (.conWr 0xE000 0x41 0) (smallAt [1, 2, 3] [4, 5, 6] 0 0) = .next t ∧ t.grid ≠ (smallAt [1, 2, 3] [4, 5, 6] 0 0).grid :=
  ⟨_, rfl, by decide⟩
theorem witness_LoadWritesThroughTheBus : base.running = false ∧ 0xFFFE + [(1 : Byte), 2].length ≤ 0x10000 := by decide
theorem witness_LoadFailsWhole : base.running = false ∧ 0x10000 < 0xFFFE + [(1 : Byte), 2, 3].length := by decide
theorem witness_LoadedBytesAreInRam :
    base.running = false ∧ 0xFFFE + [(1 : Byte), 2].length ≤ 0x10000 ∧
      ∀ i, i < [(1 : Byte), 2].length → writeTakenBy base.config (BitVec.ofNat 16 (0xFFFE + i)) = none := by decide
theorem witness_LoadTwiceIsLoadOnce :
    base.Inv ∧ base.running = false ∧ 0xE7CE + [(1 : Byte), 2, 3].length ≤ 0x10000 ∧
      (base.config.uartAddr < 0xE7CE ∨ 0xE7CE + [(1 : Byte), 2, 3].length ≤ base.config.uartAddr) :=
  ⟨base_inv, by decide, by decide, by decide⟩
theorem witness_WatchSetsTheAddress :
    base.running = false ∧ base.config.haltLinked = true ∧ ({ base.config with haltLinked := false } : Config).haltLinked = false := by decide
theorem witness_StepPerformsTheCpuRun : base.cpuScript = [] := by decide
theorem witness_StepOfAScriptedCpu : ({ base with cpuScript := [⟨[⟨0x1EFFF, 0x2A, 0x0300⟩], 0x0303⟩] } : State).cpuScript = ⟨[⟨0x1EFFF, 0x2A, 0x0300⟩], 0x0303⟩ :: [] := by decide
theorem witness_WatchAddressHaltsOnce :
    ∃ t, exec .step { base with running := true, watchAddress := some 0xF010, cpuScript := [⟨[], 0xF010⟩] } = .next t ∧
      some (0xF010 : Address) = some t.cpu.pc := ⟨_, rfl, by decide⟩
theorem witness_ResetVectorIsLittleEndian :
    base.running = false ∧ base.config.uartAddr ≠ base.config.resetVector ∧
      base.config.uartAddr ≠ base.config.resetVector + 1 := by decide
theorem witness_TextInputPushesTheFirstCharacter :
    0xFF ≤ 0xFF ∧ 0xFF < 0x100 ∧ base.config.inputNarrow = .refuse ∧ ({ base.config with inputNarrow := .narrow } : Config).inputNarrow = .narrow := by decide
theorem witness_CommandsAreRefusedWhileRunning : ({ base with running := true } : State).running = true := by decide
theorem witness_ResetConstructsTheMachine : 79 < base.config.width ∧ 24 < base.config.height := by decide
/-- One configuration for each clause: no rows; an invalid width; a console one address too long; the UART on the
last cell, and on the address after it. -/
theorem witness_IllFormedConfigurationsBuildNoMachine :
    ({ small with height := 0 } : Config).height = 0 ∧ ({ small with addrWidth := 17 } : Config).addrWidth ≠ 16 ∧
      0xFFFF < 0xF831 + base.config.width * base.config.height - 1 ∧
      base.config.consoleBase ≤ 0xE7CF ∧ 0xE7CF ≤ base.config.consoleBase + base.config.width * base.config.height - 1 ∧
      base.config.consoleBase + base.config.width * base.config.height - 1 < 0xE7D0 := by decide
theorem witness_StepRunsTheDecodedTransaction :
    ({ base with inbox := [.bus ⟨0x1EFFF, 0x41, 0⟩] } : State).terminated = false ∧
      ({ base with inbox := [.bus ⟨0x1EFFF, 0x41, 0⟩] } : State).running = false ∧
      ({ base with inbox := [.bus ⟨0x1EFFF, 0x41, 0⟩] } : State).inbox = .bus ⟨0x1EFFF, 0x41, 0⟩ :: [] := by decide
theorem witness_StepRunsTheDecodedTransaction_running :
    ({ base with running := true, cpuScript := [⟨[⟨0x1EFFF, 0x41, 0⟩], 3⟩] } : State).running = true ∧
      ({ base with running := true, cpuScript := [⟨[⟨0x1EFFF, 0x41, 0⟩], 3⟩] } : State).inbox = [] := by decide
theorem witness_StepRunsTheRequestedOperation :
    ({ base with inbox := [.command .go] } : State).terminated = false ∧
      ({ base with inbox := [.command .go] } : State).inbox = .command .go :: [] ∧
      decodeRequest base.config (.command .go) = some .run ∧
      (({ base with inbox := [.command .go] } : State).running = true → waitsForHalt (.command .go) = false) := by decide
theorem witness_StepRunsTheRequestedOperation_running :
    ({ base with running := true, inbox := [.cancel] } : State).inbox = .cancel :: [] ∧
      decodeRequest base.config .cancel = some .cancel ∧ waitsForHalt .cancel = false := by decide
theorem witness_RunningMachineStepsTheCpu :
    ({ base with running := true, inbox := [.bus ⟨0x1EFFF, 0x41, 0⟩, .setHalt none] } : State).terminated = false ∧
      ({ base with running := true, inbox := [.bus ⟨0x1EFFF, 0x41, 0⟩, .setHalt none] } : State).running = true ∧
      ∀ r ∈ ({ base with running := true, inbox := [.bus ⟨0x1EFFF, 0x41, 0⟩, .setHalt none] } : State).inbox, waitsForHalt r = true := by
  decide
theorem witness_RunningMachineStepsTheCpu_pass :
    ({ base with running := true, inbox := graphicalRound [.textInput [0x68]] true } : State).terminated = false ∧
      ({ base with running := true, inbox := graphicalRound [.textInput [0x68]] true } : State).inbox =
        .pass :: [.textInput [0x68], .present true] := by decide
/-- One step for each way: the watch address, a UART access at the halt address, CANCEL, TERMINATE. -/
theorem witness_ARunEndsInThreeWays :
    after State.running (step { base with running := true, watchAddress := some 3, cpuScript := [⟨[], 3⟩] }) = some false ∧
      after State.running (step { base with running := true, haltAddress := some 0, cpuScript := [⟨[⟨0x1EFFF, 1, 0⟩], 3⟩] }) = some false ∧
      after State.running (step { base with running := true, inbox := [.cancel] }) = some false ∧
      after State.running (step { base with running := true, inbox := [.terminate] }) = some false := by decide
theorem witness_HaltedMachineWaits : State.reset.running = false ∧ State.reset.inbox = [] ∧ ({ base with terminated := true } : State).terminated = true := by decide
theorem witness_EveryStepKeepsTheInvariant :
    ({ base with inbox := [.bus ⟨0x1EFFF, 0x41, 0⟩] } : State).Inv ∧
      ∃ t, step { base with inbox := [.bus ⟨0x1EFFF, 0x41, 0⟩] } = .next t :=
  ⟨base_inv.congr rfl rfl rfl rfl rfl rfl, _, rfl⟩
theorem witness_ConfigurationNeverChanges : ∃ t, exec .scroll base = .next t := ⟨_, rfl⟩

end Sys2Proof.Tests
end

section
/-!
PROOFS. The encoding family (30_encoding.md R96, R99, R103): the console's addresses and its cells, the plain RAM
after the console, the debugger's commands.
-/

namespace Sys2Proof.Machine

/-! ### The cells of the console's addresses (R96) -/

/-- The console is handed the writes of its own `WIDTH * HEIGHT` addresses and no others (R126). -/
theorem writeTakenBy_eq_conWr_iff {c : Config} (hc : configWellFormed c = true) (addr : Address) :
    writeTakenBy c addr = some .conWr ↔
      c.consoleBase ≤ addr.toNat ∧ addr.toNat < c.consoleBase + c.width * c.height := by
  obtain ⟨⟨hw, hh⟩, -⟩ := (configWellFormed_iff c).1 hc
  have hcells : 0 < c.width * c.height := Nat.mul_pos hw hh
  have hlast : addr.toNat < c.consoleBase + c.width * c.height ↔ addr.toNat ≤ consoleLast c := by
    unfold consoleLast; omega
  rw [writeTakenBy, writeHandlerAt_regions, hlast]
  split_ifs with hconsole
  · exact iff_of_true rfl hconsole
  · exact iff_of_false nofun hconsole
  · exact iff_of_false nofun hconsole

/-- The console ends inside the address space (R9). -/
theorem console_le_addressSpace {c : Config} (hc : configWellFormed c = true) :
    c.consoleBase + c.width * c.height ≤ 2 ^ 16 := by
  obtain ⟨-, ⟨-, hlast⟩, -⟩ := (configWellFormed_iff c).1 hc
  unfold consoleLast lastAddress at hlast
  omega

/-- A cell inside the grid has an offset inside the grid. -/
theorem cellOffset_lt_cells {c : Config} {x y : Nat} (hx : x < c.width) (hy : y < c.height) :
    y * c.width + x < c.width * c.height :=
  calc y * c.width + x < (y + 1) * c.width := by rw [Nat.succ_mul]; omega
    _ ≤ c.height * c.width := Nat.mul_le_mul_right _ hy
    _ = c.width * c.height := Nat.mul_comm ..

/-- The address of a cell inside the grid is not truncated to 16 bits. -/
theorem cellAddress_toNat {c : Config} (hc : configWellFormed c = true) {x y : Nat} (hx : x < c.width)
    (hy : y < c.height) : (cellAddress c x y).toNat = c.consoleBase + y * c.width + x := by
  have hoff := cellOffset_lt_cells hx hy
  have hspace := console_le_addressSpace hc
  rw [cellAddress, BitVec.toNat_ofNat, Nat.mod_eq_of_lt (by omega)]

/-- A write at the address of a cell inside the grid selects CON_WR (R93). -/
theorem writeTakenBy_cellAddress {c : Config} (hc : configWellFormed c = true) {x y : Nat} (hx : x < c.width)
    (hy : y < c.height) : writeTakenBy c (cellAddress c x y) = some .conWr := by
  have hoff := cellOffset_lt_cells hx hy
  rw [writeTakenBy_eq_conWr_iff hc, cellAddress_toNat hc hx hy]
  omega

theorem cellOffset_cellAddress {c : Config} (hc : configWellFormed c = true) {x y : Nat} (hx : x < c.width)
    (hy : y < c.height) : cellOffset c (cellAddress c x y) = y * c.width + x := by
  rw [cellOffset, cellAddress_toNat hc hx hy]
  omega

theorem cellColumn_cellAddress {c : Config} (hc : configWellFormed c = true) {x y : Nat} (hx : x < c.width)
    (hy : y < c.height) : cellColumn c (cellAddress c x y) = x := by
  rw [cellColumn, cellOffset_cellAddress hc hx hy, Nat.mul_add_mod_of_lt hx]

theorem cellRow_cellAddress {c : Config} (hc : configWellFormed c = true) {x y : Nat} (hx : x < c.width)
    (hy : y < c.height) : cellRow c (cellAddress c x y) = y := by
  have hw : 0 < c.width := Nat.zero_lt_of_lt hx
  rw [cellRow, cellOffset_cellAddress hc hx hy, Nat.mul_comm, Nat.mul_add_div hw, Nat.div_eq_of_lt hx, Nat.add_zero]

/-- A console address is the address of its own cell (R96). -/
theorem cellAddress_cell {c : Config} (hc : configWellFormed c = true) {addr : Address}
    (h : writeTakenBy c addr = some .conWr) : cellAddress c (cellColumn c addr) (cellRow c addr) = addr := by
  obtain ⟨hx, hy⟩ := cell_in_grid hc h
  obtain ⟨hbase, -⟩ := (writeTakenBy_eq_conWr_iff hc addr).1 h
  have hoff : cellRow c addr * c.width + cellColumn c addr = addr.toNat - c.consoleBase :=
    Nat.div_add_mod' (cellOffset c addr) c.width
  apply BitVec.eq_of_toNat_eq
  rw [cellAddress_toNat hc hx hy]
  omega

/-- Settles O6: an offset is its row times the width plus its column, and no cell's address is truncated. -/
theorem consoleAddressesNameCells : Obligations.ConsoleAddressesNameCells := by
  refine ⟨fun c addr hc h => ?_, fun c x y hc hx hy => ?_, by decide, by decide, by decide, by decide⟩
  · obtain ⟨hx, hy⟩ := cell_in_grid hc h
    exact ⟨rfl, rfl, hx, hy, cellAddress_cell hc h⟩
  · exact ⟨cellAddress_toNat hc hx hy, writeTakenBy_cellAddress hc hx hy, cellColumn_cellAddress hc hx hy,
      cellRow_cellAddress hc hx hy⟩

/-! ### Every transaction completes (R99) -/

/-- At an address that no handler takes in either direction, a transaction is a RAM access (R120, R121). -/
theorem decode_of_not_taken {c : Config} {t : Transaction} (hw : writeTakenBy c t.addr = none)
    (hr : readTakenBy c t.addr = none) :
    decode c t = if t.isWrite = true then .ramWr t.addr t.wdata t.pc else .ramRd t.addr t.pc := by
  rw [decode, decodeWrite, decodeRead, hw, hr]

/-- No handler of the reference configuration takes an address between the console and the UART (R126). -/
theorem reference_not_taken {addr : Address} (hlo : 0xE7D0 ≤ addr.toNat) (hhi : addr.toNat ≤ 0xEFFE) :
    writeTakenBy Config.reference addr = none ∧ readTakenBy Config.reference addr = none := by
  have hlast : consoleLast Config.reference = 0xE7CF := rfl
  have huart : Config.reference.uartAddr = 0xEFFF := rfl
  rw [writeTakenBy, readTakenBy, writeHandlerAt_regions, readHandlerAt_regions, hlast, huart,
    if_neg (by omega), if_neg (by omega), if_neg (by omega)]
  exact ⟨rfl, rfl⟩

/-- Settles O14: the decode of a transaction performs it, and nothing is mapped between the console and the UART. -/
theorem everyTransactionCompletes : Obligations.EveryTransactionCompletes := by
  refine ⟨fun s t => ⟨s.transact t, exec_decode s t⟩, fun t hlo hhi => ?_⟩
  obtain ⟨hw, hr⟩ := reference_not_taken hlo hhi
  exact decode_of_not_taken hw hr

/-! ### The debugger's commands (R103) -/

/-- Settles O7: each clause is the command's row of the table of R103, which `Command.operation` writes out. -/
theorem commandsAreMonitorOperations : Obligations.CommandsAreMonitorOperations :=
  ⟨fun _ _ => rfl, rfl, rfl, rfl, fun _ => rfl, fun _ => rfl, rfl, rfl⟩

end Sys2Proof.Machine
end

section
/-!
PROOFS. The bus dispatch family (40_bus_dispatch.md R120 to R123, R132): which handler the region table gives a read
and a write, the RAM fallback's two operations, and RAM as memory across transactions.
-/

namespace Sys2Proof.Machine

/-! ### The handler the region table gives (R120, R121, R126) -/

/-- The regions of a configuration are the console's and the UART's (R126). -/
theorem exists_mem_regions (c : Config) (p : Region → Prop) :
    (∃ r ∈ regions c, p r) ↔ p (consoleRegion c) ∨ p (uartRegion c) := by
  simp [regions]

/-- A read is taken by the read handler of a region that covers its address (R120). -/
theorem readTakenBy_eq_some_iff (c : Config) (addr : Address) (k : ReadHandler) :
    readTakenBy c addr = some k ↔
      ∃ r ∈ regions c, r.start ≤ addr.toNat ∧ addr.toNat ≤ r.last ∧ r.onRead = some k := by
  rw [readTakenBy, readHandlerAt_regions, exists_mem_regions]
  split_ifs with huart
  · simp [consoleRegion, uartRegion, huart]
  · simp [consoleRegion, uartRegion]
    omega

/-- A write is taken by the write handler of a region that covers its address (R121); there is one such handler at
most, since the regions of a well-formed configuration do not overlap (R125). -/
theorem writeTakenBy_eq_some_iff {c : Config} (hc : configWellFormed c = true) (addr : Address) (k : WriteHandler) :
    writeTakenBy c addr = some k ↔
      ∃ r ∈ regions c, r.start ≤ addr.toNat ∧ addr.toNat ≤ r.last ∧ r.onWrite = some k := by
  obtain ⟨-, -, -, -, hdisjoint, -⟩ := (configWellFormed_iff c).1 hc
  rw [writeTakenBy, writeHandlerAt_regions, exists_mem_regions]
  split_ifs with hconsole huart
  · simp [consoleRegion, uartRegion, hconsole]
    omega
  · simp [consoleRegion, uartRegion, huart]
    omega
  · simp [consoleRegion, uartRegion]
    omega

/-- A read that no region's read handler takes is the RAM fallback's (R120). -/
theorem readTakenBy_eq_none {c : Config} {addr : Address}
    (h : ∀ r ∈ regions c, r.start ≤ addr.toNat → addr.toNat ≤ r.last → r.onRead = none) :
    readTakenBy c addr = none := by
  refine Option.eq_none_iff_forall_ne_some.2 fun k hk => ?_
  obtain ⟨r, hr, hlo, hhi, hread⟩ := (readTakenBy_eq_some_iff c addr k).1 hk
  exact Option.some_ne_none k (hread.symm.trans (h r hr hlo hhi))

/-- A write that no region's write handler takes is the RAM fallback's (R121). -/
theorem writeTakenBy_eq_none {c : Config} (hc : configWellFormed c = true) {addr : Address}
    (h : ∀ r ∈ regions c, r.start ≤ addr.toNat → addr.toNat ≤ r.last → r.onWrite = none) :
    writeTakenBy c addr = none := by
  refine Option.eq_none_iff_forall_ne_some.2 fun k hk => ?_
  obtain ⟨r, hr, hlo, hhi, hwrite⟩ := (writeTakenBy_eq_some_iff hc addr k).1 hk
  exact Option.some_ne_none k (hwrite.symm.trans (h r hr hlo hhi))

/-! ### The dispatch and the fallback, a case each -/

theorem exec_busRd (s : State) (addr pc : Address) : exec (.busRd addr pc) s = .next (s.busRead addr pc) := rfl

theorem exec_busWr (s : State) (addr : Address) (v : Byte) (pc : Address) :
    exec (.busWr addr v pc) s = .next (s.busWrite addr v pc) := rfl

theorem exec_uartRd (s : State) (pc : Address) : exec (.uartRd pc) s = .next (s.uartRead pc) := rfl

theorem exec_uartWr (s : State) (v : Byte) (pc : Address) : exec (.uartWr v pc) s = .next (s.uartWrite v pc) := rfl

theorem exec_ramRd {s : State} {addr : Address} (h : readTakenBy s.config addr = none) (pc : Address) :
    exec (.ramRd addr pc) s = .next (s.ramRead addr) := if_pos h

theorem exec_ramWr {s : State} {addr : Address} (h : writeTakenBy s.config addr = none) (v : Byte) (pc : Address) :
    exec (.ramWr addr v pc) s = .next (s.ramWrite addr v) := if_pos h

theorem exec_conWr {s : State} {addr : Address} (h : writeTakenBy s.config addr = some .conWr) (v : Byte)
    (pc : Address) : exec (.conWr addr v pc) s = .next (s.conWrite addr v) := if_pos h

theorem State.busRead_of_uartRd {s : State} {addr : Address} (h : readTakenBy s.config addr = some .uartRd)
    (pc : Address) : s.busRead addr pc = s.uartRead pc := by
  rw [State.busRead, h]

theorem State.busRead_of_not_taken {s : State} {addr : Address} (h : readTakenBy s.config addr = none)
    (pc : Address) : s.busRead addr pc = s.ramRead addr := by
  rw [State.busRead, h]

theorem State.busWrite_of_uartWr {s : State} {addr : Address} (h : writeTakenBy s.config addr = some .uartWr)
    (v : Byte) (pc : Address) : s.busWrite addr v pc = s.uartWrite v pc := by
  rw [State.busWrite, h]

theorem State.busWrite_of_conWr {s : State} {addr : Address} (h : writeTakenBy s.config addr = some .conWr)
    (v : Byte) (pc : Address) : s.busWrite addr v pc = s.conWrite addr v := by
  rw [State.busWrite, h]

theorem State.busWrite_of_not_taken {s : State} {addr : Address} (h : writeTakenBy s.config addr = none)
    (v : Byte) (pc : Address) : s.busWrite addr v pc = s.ramWrite addr v := by
  rw [State.busWrite, h]

/-- A write that a handler takes does not reach RAM (R121). -/
theorem State.busWrite_ram_of_taken {s : State} {addr : Address} (h : writeTakenBy s.config addr ≠ none)
    (v : Byte) (pc : Address) : (s.busWrite addr v pc).ram = s.ram := by
  obtain ⟨k, hk⟩ := Option.ne_none_iff_exists'.1 h
  cases k with
  | uartWr => rw [State.busWrite_of_uartWr hk, State.uartWrite_ram]
  | conWr => rw [State.busWrite_of_conWr hk, State.conWrite_ram]

/-- Settles O8: the UART's is the one read handler of the table, and the two clauses are the two cases of `busRead`. -/
theorem busReadInvokesHandlerOrRam : Obligations.BusReadInvokesHandlerOrRam := by
  refine fun s addr pc => ⟨⟨_, exec_busRd s addr pc⟩, fun r hr hlo hhi hread => ?_, fun hno => ?_⟩
  · have htaken := (readTakenBy_eq_some_iff s.config addr .uartRd).2 ⟨r, hr, hlo, hhi, hread⟩
    rw [exec_busRd, exec_uartRd, State.busRead_of_uartRd htaken]
  · have hfree := readTakenBy_eq_none hno
    rw [exec_busRd, exec_ramRd hfree, State.busRead_of_not_taken hfree]

/-- Settles O9: no two regions give one address a write handler, and the clauses are the cases of `busWrite`. -/
theorem busWriteInvokesHandlerOrRam : Obligations.BusWriteInvokesHandlerOrRam := by
  intro s addr v pc
  have taken := writeTakenBy_eq_some_iff s.config_wellFormed addr
  refine ⟨⟨_, exec_busWr s addr v pc⟩, fun r hr hlo hhi => ⟨fun huart => ?_, fun hconsole => ?_⟩, fun hno => ?_,
    fun t htaken ht => ?_⟩
  · have htaken := (taken .uartWr).2 ⟨r, hr, hlo, hhi, huart⟩
    rw [exec_busWr, exec_uartWr, State.busWrite_of_uartWr htaken]
  · have htaken := (taken .conWr).2 ⟨r, hr, hlo, hhi, hconsole⟩
    rw [exec_busWr, exec_conWr htaken, State.busWrite_of_conWr htaken]
  · have hfree := writeTakenBy_eq_none s.config_wellFormed hno
    rw [exec_busWr, exec_ramWr hfree, State.busWrite_of_not_taken hfree]
  · cases ht
    exact State.busWrite_ram_of_taken htaken v pc

/-! ### RAM_RD and RAM_WR (R122, R123) -/

theorem Memory.listed_eq_none {m : List Host.Cell} {a : Nat} (h : ∀ cell ∈ m, cell.1 ≠ a) :
    Memory.listed m a = none := by
  induction m with
  | nil => rfl
  | cons cell m ih =>
    obtain ⟨hhead, htail⟩ := List.forall_mem_cons.1 h
    exact (if_neg hhead).trans (ih htail)

/-- An address that nothing has written reads `RAM_INIT` (R24, R122). -/
theorem State.ramByte_of_unlisted {s : State} {a : Nat} (h : ∀ cell ∈ s.ram, cell.1 ≠ a) :
    s.ramByte a = s.config.ramInit.getD a 0 := by
  rw [State.ramByte, Memory.read, Memory.listed_eq_none h]
  rfl

theorem State.ramRead_eq (s : State) (addr : Address) :
    s.ramRead addr = { s with returned := some ⟨some (s.ramByte addr.toNat), false⟩ } := rfl

/-- RAM_WR changes RAM and the result, and nothing else (R123). -/
theorem State.ramWrite_frame (s : State) (addr : Address) (v : Byte) :
    s.ramWrite addr v = { s with ram := (s.ramWrite addr v).ram, returned := some ⟨none, false⟩ } := rfl

/-- `RAM[a]` after RAM_WR (R123). -/
@[simp] theorem State.ramWrite_ramByte (s : State) (addr : Address) (v : Byte) (a : Nat) :
    (s.ramWrite addr v).ramByte a = if a = addr.toNat then v else s.ramByte a :=
  s.storeByte_ramByte addr.toNat a v

/-- Settles O10: `ramRead` writes its result alone, and an address that is not listed reads `RAM_INIT`. -/
theorem ramReadReturnsTheByte : Obligations.RamReadReturnsTheByte :=
  fun s addr pc h => ⟨by rw [exec_ramRd h, State.ramRead_eq], State.ramByte_of_unlisted⟩

/-- Settles O11: the byte store's law of a read after a write, and the frame of `ramWrite`. -/
theorem ramWriteStoresOneByte : Obligations.RamWriteStoresOneByte := by
  intro s addr v pc h
  refine ⟨s.ramWrite addr v, exec_ramWr h v pc, ?_, fun a ha => ?_, s.ramWrite_frame addr v⟩
  · rw [State.ramWrite_ramByte, if_pos rfl]
  · rw [State.ramWrite_ramByte, if_neg ha]

/-! ### RAM across transactions (R132) -/

/-- A write changes no byte of RAM but the one at its own address (R121, R123). -/
theorem State.busWrite_ramByte_of_ne (s : State) (addr : Address) (v : Byte) (pc : Address) {a : Nat}
    (ha : a ≠ addr.toNat) : (s.busWrite addr v pc).ramByte a = s.ramByte a := by
  by_cases h : writeTakenBy s.config addr = none
  · rw [State.busWrite_of_not_taken h, State.ramWrite_ramByte, if_neg ha]
  · exact State.ramByte_congr (s.busWrite_config addr v pc) (State.busWrite_ram_of_taken h v pc) a

/-- A transaction that does not write an address leaves its byte of RAM. -/
theorem State.transact_ramByte (s : State) {t : Transaction} {a : Nat}
    (h : t.isWrite = true → a ≠ t.addr.toNat) : (s.transact t).ramByte a = s.ramByte a := by
  unfold State.transact
  split
  case isTrue hw => exact s.busWrite_ramByte_of_ne t.addr t.wdata t.pc (h hw)
  case isFalse => exact State.ramByte_congr (s.busRead_config t.addr t.pc) (s.busRead_ram t.addr t.pc) a

/-- Transactions that do not write an address leave its byte of RAM. -/
theorem State.transactAll_ramByte (s : State) {ts : List Transaction} {a : Nat}
    (h : ∀ t ∈ ts, t.isWrite = true → a ≠ t.addr.toNat) : (s.transactAll ts).ramByte a = s.ramByte a := by
  induction ts generalizing s with
  | nil => rfl
  | cons t ts ih =>
    obtain ⟨hhead, htail⟩ := List.forall_mem_cons.1 h
    exact (ih (s.transact t) htail).trans (s.transact_ramByte hhead)

/-- A RAM byte that was written stays through every transaction that does not write its address (R123, R132). -/
theorem State.ramByte_of_written {s : State} {addr : Address} (hfree : writeTakenBy s.config addr = none) (v : Byte)
    (pc : Address) {ts : List Transaction} (h : ∀ t ∈ ts, t.isWrite = true → t.addr ≠ addr) :
    ((s.busWrite addr v pc).transactAll ts).ramByte addr.toNat = v := by
  have hother : ∀ t ∈ ts, t.isWrite = true → addr.toNat ≠ t.addr.toNat :=
    fun t ht hw heq => h t ht hw (BitVec.eq_of_toNat_eq heq.symm)
  rw [State.transactAll_ramByte _ hother, State.busWrite_of_not_taken hfree, State.ramWrite_ramByte, if_pos rfl]

theorem execAll_cons_of_next {i : Instr} {s t : State} (h : exec i s = .next t) (is : List Instr) :
    execAll (i :: is) s = execAll is t := by
  rw [execAll, h]

theorem execAll_append_of_next {is : List Instr} {s t : State} (h : execAll is s = .next t) (js : List Instr) :
    execAll (is ++ js) s = execAll js t := by
  rw [execAll_append, h]

/-- A write, transactions and a read complete, each on the state the one before it leaves (R75, R99). -/
theorem execAll_busWr_decode_busRd (s : State) (addr : Address) (v : Byte) (p p' : Address) (ts : List Transaction) :
    execAll (.busWr addr v p :: ts.map (decode s.config) ++ [.busRd addr p']) s =
      .next (((s.busWrite addr v p).transactAll ts).busRead addr p') := by
  have hbetween := execAll_decode ts (s.busWrite addr v p)
  rw [State.busWrite_config] at hbetween
  have hwrites := (execAll_cons_of_next (exec_busWr s addr v p) _).trans hbetween
  rw [execAll_append_of_next hwrites, execAll_cons_of_next (exec_busRd _ addr p'), execAll]

/-- Settles O12: the byte written is still in RAM when the read falls back to it. -/
theorem ramReadAfterWrite : Obligations.RamReadAfterWrite := by
  intro s addr v p p' between hwrite hread hother
  have hfree : readTakenBy ((s.busWrite addr v p).transactAll between).config addr = none := by
    rw [State.transactAll_config, State.busWrite_config, hread]
  refine ⟨_, execAll_busWr_decode_busRd s addr v p p' between, ?_⟩
  rw [State.busRead_of_not_taken hfree, State.ramRead_eq, State.ramByte_of_written hwrite v p hother]

end Sys2Proof.Machine
end

section
/-!
PROOFS. The UART family (41_uart.md R141, R142, R144, R145): the halt check at the end of a UART access, the pending
byte that a read delivers and clears, and what leaves the pending byte alone.
-/

namespace Sys2Proof.Machine

/-! ### The end of a UART access: the result and the halt check (R144) -/

/-- A halt request can change `running` and the report count, and nothing else (R221). -/
theorem State.requestHalt_frame (s : State) :
    s.requestHalt = { s with running := false, haltReports := s.requestHalt.haltReports } := by
  unfold State.requestHalt
  split
  case isTrue => rfl
  case isFalse h => rw [← Bool.eq_false_of_not_eq_true h]

theorem State.settle_false (s : State) (d : Option Byte) :
    s.settle d false = { s with returned := some ⟨d, false⟩ } := rfl

/-- An access that asks for the halt leaves the machine HALTED, and changes the result and the report count beside. -/
theorem State.settle_true (s : State) (d : Option Byte) :
    s.settle d true = { s with
      returned := some ⟨d, true⟩, running := false, haltReports := (s.settle d true).haltReports } :=
  (s.returns d true).requestHalt_frame

theorem State.haltCheck_of_eq {s : State} {pc : Address} (h : s.haltAddress = some pc) : s.haltCheck pc = true :=
  decide_eq_true h

theorem State.haltCheck_of_ne {s : State} {pc : Address} (h : s.haltAddress ≠ some pc) : s.haltCheck pc = false :=
  decide_eq_false h

/-! ### What the UART's operations do, said once (R140 to R142) -/

theorem exec_haltCheck (s : State) (pc : Address) :
    exec (.haltCheck pc) s = .next (s.settle none (s.haltCheck pc)) := rfl

theorem exec_inputPush (s : State) (c : Byte) : exec (.inputPush c) s = .next (s.setPending c) := rfl

@[simp] theorem State.uartWrite_returned (s : State) (v : Byte) (pc : Address) :
    (s.uartWrite v pc).returned = some ⟨none, s.haltCheck pc⟩ :=
  State.settle_returned _ _ _

@[simp] theorem State.uartRead_returned (s : State) (pc : Address) :
    (s.uartRead pc).returned = some ⟨some s.pendingInput, s.haltCheck pc⟩ :=
  State.settle_returned _ _ _

@[simp] theorem State.uartRead_pendingInput (s : State) (pc : Address) : (s.uartRead pc).pendingInput = 0 :=
  State.settle_pendingInput _ _ _

/-- Settles O17: the check selects between the two ends of an access, and each handler returns what it says. -/
theorem haltCheckComparesProgramCounter : Obligations.HaltCheckComparesProgramCounter := by
  refine fun s pc => ⟨fun h => ?_, fun h => ?_, fun v => ?_, ?_⟩
  · rw [exec_haltCheck, State.haltCheck_of_eq h, State.settle_true]
    exact ⟨_, rfl, rfl, rfl, rfl⟩
  · rw [exec_haltCheck, State.haltCheck_of_ne h, State.settle_false]
  · exact ⟨_, exec_uartWr s v pc, s.uartWrite_returned v pc⟩
  · exact ⟨_, _, exec_uartRd s pc, s.uartRead_returned pc⟩

/-- Settles O20: the byte is cleared before the access ends, so that either end of it keeps the delivery. -/
theorem uartReadDeliversAndClears : Obligations.UartReadDeliversAndClears := by
  refine fun s pc => ⟨fun h => ?_, fun h => ?_⟩
  · rw [exec_uartRd, State.uartRead, State.haltCheck_of_ne h, State.settle_false]
    rfl
  · rw [exec_uartRd, State.uartRead, State.haltCheck_of_eq h, State.settle_true]
    exact ⟨_, rfl, rfl, rfl, rfl, rfl⟩

/-- Settles O22: INPUT_PUSH is the one assignment to the slot. -/
theorem inputPushOverwrites : Obligations.InputPushOverwrites := exec_inputPush

/-! ### One-shot delivery (R145) -/

/-- Only a UART read touches the pending byte. -/
theorem State.transact_pendingInput (s : State) {t : Transaction}
    (h : t.isWrite = true ∨ readTakenBy s.config t.addr = none) : (s.transact t).pendingInput = s.pendingInput := by
  unfold State.transact
  split
  case isTrue => exact s.busWrite_pendingInput t.addr t.wdata t.pc
  case isFalse hread =>
    rw [State.busRead_of_not_taken (h.resolve_left hread), State.ramRead_pendingInput]

/-- Transactions that are no UART read leave the pending byte. -/
theorem State.transactAll_pendingInput (s : State) {ts : List Transaction}
    (h : ∀ t ∈ ts, t.isWrite = true ∨ readTakenBy s.config t.addr = none) :
    (s.transactAll ts).pendingInput = s.pendingInput := by
  induction ts generalizing s with
  | nil => rfl
  | cons t ts ih =>
    obtain ⟨hhead, htail⟩ := List.forall_mem_cons.1 h
    rw [← s.transact_config t] at htail
    exact (ih (s.transact t) htail).trans (s.transact_pendingInput hhead)

/-- Transactions and a UART read complete, each on the state the one before it leaves (R75, R99). -/
theorem execAll_decode_uartRd (s : State) (ts : List Transaction) (p : Address) :
    execAll (ts.map (decode s.config) ++ [.uartRd p]) s = .next ((s.transactAll ts).uartRead p) := by
  rw [execAll_append_of_next (execAll_decode ts s), execAll_cons_of_next (exec_uartRd _ p), execAll]

/-- After transactions that are no UART read, a UART read returns the pending byte and leaves 0 pending. -/
theorem execAll_decode_uartRd_delivers (s : State) {ts : List Transaction}
    (hts : ∀ t ∈ ts, t.isWrite = true ∨ readTakenBy s.config t.addr = none) (p : Address) :
    ∃ u h, execAll (ts.map (decode s.config) ++ [.uartRd p]) s = .next u ∧
      u.returned = some ⟨some s.pendingInput, h⟩ ∧ u.pendingInput = 0 ∧ u.config = s.config := by
  refine ⟨_, (s.transactAll ts).haltCheck p, execAll_decode_uartRd s ts p, ?_, State.uartRead_pendingInput _ p, ?_⟩
  · rw [State.uartRead_returned, s.transactAll_pendingInput hts]
  · rw [State.uartRead_config, State.transactAll_config]

/-- Settles O21: up to the first read the pending byte is the pushed one, and up to the second it is the 0 that the
first has left. -/
theorem uartDeliversOnce : Obligations.UartDeliversOnce := by
  intro s c p p' before between hbefore hbetween
  obtain ⟨u, h, hu, hfirst, hpending, hconfig⟩ := execAll_decode_uartRd_delivers (s.setPending c) hbefore p
  rw [State.setPending_config] at hconfig
  rw [← hconfig] at hbetween
  obtain ⟨v, h', hv, hsecond, -, -⟩ := execAll_decode_uartRd_delivers u hbetween p'
  rw [hconfig] at hv
  rw [hpending] at hsecond
  exact ⟨u, v, h, h', (execAll_cons_of_next (exec_inputPush s c) _).trans hu, hfirst, hv, hsecond⟩

end Sys2Proof.Machine
end

section
/-!
PROOFS. The console family (42_console.md R160, R163): the one cell a console write sets, and the rows a scroll moves.
-/

namespace Sys2Proof.Machine

/-! ### The console write (R160) -/

/-- A write from the console's first address to its last is the console's (R126). -/
theorem writeTakenBy_eq_conWr {c : Config} {addr : Address} (hlo : c.consoleBase ≤ addr.toNat)
    (hhi : addr.toNat ≤ consoleLast c) : writeTakenBy c addr = some .conWr := by
  rw [writeTakenBy, writeHandlerAt_regions, if_pos ⟨hlo, hhi⟩]

@[simp] theorem State.conWrite_grid (s : State) (addr : Address) (v : Byte) :
    (s.conWrite addr v).grid =
      Grid.put s.grid (cellColumn s.config addr) (cellRow s.config addr) (Cell.ofGlyph v) := rfl

/-- A console write changes the grid, `updated` and the result, and nothing else; it asks for no halt (R160). -/
theorem State.conWrite_frame (s : State) (addr : Address) (v : Byte) :
    s.conWrite addr v =
      { s with grid := (s.conWrite addr v).grid, updated := true, returned := some ⟨none, false⟩ } := rfl

/-- Settles O28: the address selects a cell of the grid, and a glyph put into a cell of the grid changes that one. -/
theorem consoleWriteSetsOneCell : Obligations.ConsoleWriteSetsOneCell := by
  intro s addr v pc hinv hlo hhi
  have htaken : writeTakenBy s.config addr = some .conWr := writeTakenBy_eq_conWr hlo hhi
  obtain ⟨hcolumn, hrow⟩ := cell_in_grid s.config_wellFormed htaken
  refine ⟨s.conWrite addr v, exec_conWr htaken v pc, fun x y => ?_, s.conWrite_frame addr v⟩
  rw [State.conWrite_grid]
  exact Grid.cell?_put hinv.console.grid hcolumn hrow (Cell.ofGlyph v) x y

/-! ### The scroll (R163) -/

theorem exec_scroll (s : State) : exec .scroll s = .next s.scroll := rfl

/-- Settles O30: row by row, `Grid.cell?_scrolled` of the invariant's grid, which has at least one row. -/
theorem scrollMovesRowsUp : Obligations.ScrollMovesRowsUp := by
  intro s hinv
  obtain ⟨⟨-, hheight⟩, -⟩ := (configWellFormed_iff s.config).1 s.config_wellFormed
  have hcell := Grid.cell?_scrolled hinv.console.grid hheight
  refine ⟨s.scroll, exec_scroll s, fun x y hx hy => ?_, fun x hx => ?_, rfl⟩
  · have hnotLast : y ≠ s.config.height - 1 := by omega
    rw [State.scroll_grid, hcell x y hx, if_neg hnotLast]
  · rw [State.scroll_grid, hcell x _ hx, if_pos rfl, Cell.blank, Cell.ofGlyph]

end Sys2Proof.Machine
end

section
/-!
PROOFS. Decoding (30_encoding.md R90, R93, R95): `decode` and `encode` as each other's inverse, the decode of the
reference configuration as a comparison of addresses, and the mask/match table that selects the same operations.
-/

namespace Sys2Proof.Machine

/-! ### The transaction of a bus operation (R90) -/

/-- A write transaction is the one of its operands. -/
theorem Transaction.eq_write {t : Transaction} (h : t.isWrite = true) : t = .write t.addr t.wdata t.pc := by
  rw [Transaction.write, ← h, busWord_eq]

/-- A read transaction without `wdata` is the one of its operands. -/
theorem Transaction.eq_read {t : Transaction} (h : t.isWrite = false) (hdata : t.wdata = 0) :
    t = .read t.addr t.pc := by
  rw [Transaction.read, ← h, ← hdata, busWord_eq]

@[simp] theorem decode_write (c : Config) (addr : Address) (v : Byte) (pc : Address) :
    decode c (.write addr v pc) = decodeWrite c addr v pc := by
  rw [decode, Transaction.write_isWrite, Transaction.write_addr]; rfl

@[simp] theorem decode_read (c : Config) (addr pc : Address) : decode c (.read addr pc) = decodeRead c addr pc := by
  rw [decode, Transaction.read_isWrite, Transaction.read_addr]; rfl

/-! ### The UART's one address (R126, R127) -/

/-- The UART's address is not truncated to 16 bits (R9). -/
theorem uartAddress_toNat {c : Config} (hc : configWellFormed c = true) :
    (BitVec.ofNat 16 c.uartAddr : Address).toNat = c.uartAddr := by
  obtain ⟨-, -, huart, -⟩ := (configWellFormed_iff c).1 hc
  rw [BitVec.toNat_ofNat, Nat.mod_eq_of_lt (Nat.lt_succ_of_le huart)]

theorem readTakenBy_eq_uartRd_iff (c : Config) (addr : Address) :
    readTakenBy c addr = some .uartRd ↔ addr.toNat = c.uartAddr := by
  rw [readTakenBy, readHandlerAt_regions]
  split_ifs with h
  · exact iff_of_true rfl h
  · exact iff_of_false nofun h

theorem readTakenBy_eq_none_iff (c : Config) (addr : Address) :
    readTakenBy c addr = none ↔ addr.toNat ≠ c.uartAddr := by
  rw [readTakenBy, readHandlerAt_regions]
  split_ifs with h
  · exact iff_of_false nofun (not_not_intro h)
  · exact iff_of_true rfl h

/-- A write reaches the UART at its address alone; no console cell lies there (R125). -/
theorem writeTakenBy_eq_uartWr_iff {c : Config} (hc : configWellFormed c = true) (addr : Address) :
    writeTakenBy c addr = some .uartWr ↔ addr.toNat = c.uartAddr := by
  obtain ⟨-, -, -, -, hdisjoint, -⟩ := (configWellFormed_iff c).1 hc
  rw [writeTakenBy, writeHandlerAt_regions]
  split_ifs with hconsole h
  · exact iff_of_false nofun (fun h => hdisjoint (h ▸ hconsole))
  · exact iff_of_true rfl h
  · exact iff_of_false nofun h

/-- An address with the UART's number is the UART's address. -/
theorem uartAddress_eq {c : Config} {addr : Address} (h : addr.toNat = c.uartAddr) :
    BitVec.ofNat 16 c.uartAddr = addr := by
  rw [← h, BitVec.ofNat_toNat, BitVec.setWidth_eq]

/-! ### The two directions (R93) -/

theorem decodeWrite_uartAddr {c : Config} (hc : configWellFormed c = true) (v : Byte) (pc : Address) :
    decodeWrite c (BitVec.ofNat 16 c.uartAddr) v pc = .uartWr v pc := by
  rw [decodeWrite, (writeTakenBy_eq_uartWr_iff hc _).2 (uartAddress_toNat hc)]

theorem decodeRead_uartAddr {c : Config} (hc : configWellFormed c = true) (pc : Address) :
    decodeRead c (BitVec.ofNat 16 c.uartAddr) pc = .uartRd pc := by
  rw [decodeRead, (readTakenBy_eq_uartRd_iff c _).2 (uartAddress_toNat hc)]

/-- Settles O4, a case for each operation that a word selects: its operand's address is one that selects it. -/
theorem decodeInvertsEncode : Obligations.DecodeInvertsEncode := by
  intro c i t hc hselected hwf henc
  cases i with
  | uartWr v pc => cases henc; rw [decode_write, decodeWrite_uartAddr hc]
  | uartRd pc => cases henc; rw [decode_read, decodeRead_uartAddr hc]
  | conWr addr v pc =>
    have htaken : writeTakenBy c addr = some .conWr := eq_of_beq hwf
    cases henc; rw [decode_write, decodeWrite, htaken]
  | ramWr addr v pc =>
    have hfree : writeTakenBy c addr = none := eq_of_beq hwf
    cases henc; rw [decode_write, decodeWrite, hfree]
  | ramRd addr pc =>
    have hfree : readTakenBy c addr = none := eq_of_beq hwf
    cases henc; rw [decode_read, decodeRead, hfree]
  | _ => cases hselected

/-- What a write decodes to is an operation that a word selects, at an address that selects it, and encodes back. -/
theorem encode_decodeWrite {c : Config} (hc : configWellFormed c = true) (addr : Address) (v : Byte) (pc : Address) :
    (decodeWrite c addr v pc).selectedByWord = true ∧ (decodeWrite c addr v pc).wellFormed c = true ∧
      encode c (decodeWrite c addr v pc) = some (.write addr v pc) := by
  unfold decodeWrite
  split
  case h_1 htaken =>
    refine ⟨rfl, rfl, ?_⟩
    rw [encode, uartAddress_eq ((writeTakenBy_eq_uartWr_iff hc addr).1 htaken)]
  case h_2 htaken => exact ⟨rfl, beq_of_eq htaken, rfl⟩
  case h_3 hfree => exact ⟨rfl, beq_of_eq hfree, rfl⟩

/-- What a read decodes to is an operation that a word selects, at an address that selects it, and encodes back. -/
theorem encode_decodeRead (c : Config) (addr pc : Address) :
    (decodeRead c addr pc).selectedByWord = true ∧ (decodeRead c addr pc).wellFormed c = true ∧
      encode c (decodeRead c addr pc) = some (.read addr pc) := by
  unfold decodeRead
  split
  case h_1 htaken =>
    refine ⟨rfl, rfl, ?_⟩
    rw [encode, uartAddress_eq ((readTakenBy_eq_uartRd_iff c addr).1 htaken)]
  case h_2 hfree => exact ⟨rfl, beq_of_eq hfree, rfl⟩

/-- Settles O5: a transaction is the write or the read of its own operands, and those two decode as just said. -/
theorem encodeInvertsDecode : Obligations.EncodeInvertsDecode := by
  intro c t hc hread
  cases hdir : t.isWrite with
  | true =>
    rw [Transaction.eq_write hdir, decode_write]
    exact encode_decodeWrite hc t.addr t.wdata t.pc
  | false =>
    rw [Transaction.eq_read hdir (hread hdir), decode_read]
    exact encode_decodeRead c t.addr t.pc

/-! ### The reference configuration (R95, R126) -/

theorem decodeWrite_reference (addr : Address) (v : Byte) (pc : Address) :
    decodeWrite Config.reference addr v pc =
      if addr.toNat = 0xEFFF then .uartWr v pc
      else if 0xE000 ≤ addr.toNat ∧ addr.toNat ≤ 0xE7CF then .conWr addr v pc
      else .ramWr addr v pc := by
  have hbase : Config.reference.consoleBase = 0xE000 := rfl
  have hlast : consoleLast Config.reference = 0xE7CF := rfl
  have huart : Config.reference.uartAddr = 0xEFFF := rfl
  rw [decodeWrite, writeTakenBy, writeHandlerAt_regions, hbase, hlast, huart]
  by_cases hconsole : 0xE000 ≤ addr.toNat ∧ addr.toNat ≤ 0xE7CF
  · have hnot : addr.toNat ≠ 0xEFFF := by omega
    rw [if_pos hconsole, if_neg hnot, if_pos hconsole]
  · rw [if_neg hconsole, if_neg hconsole]
    split_ifs <;> rfl

theorem decodeRead_reference (addr pc : Address) :
    decodeRead Config.reference addr pc = if addr.toNat = 0xEFFF then .uartRd pc else .ramRd addr pc := by
  have huart : Config.reference.uartAddr = 0xEFFF := rfl
  rw [decodeRead, readTakenBy, readHandlerAt_regions, huart]
  split_ifs <;> rfl

/-- Settles O3: a console address is the address of its own cell, and the rest is the reference's two decodes. -/
theorem decodeComparesTheWholeAddress : Obligations.DecodeComparesTheWholeAddress := by
  refine ⟨fun a b ha hb hcolumn hrow => ?_, fun t => ?_⟩
  · rw [← cellAddress_cell reference_wellFormed ha, hcolumn, hrow, cellAddress_cell reference_wellFormed hb]
  · rw [decode, decodeWrite_reference, decodeRead_reference]

/-! ### The mask/match table (R93) -/

/-- A mask of all bits from bit `k` up clears the low `k` bits. -/
theorem and_highMask_toNat (w : BusWord) (k : Nat) :
    (w &&& (BitVec.allOnes 17 <<< k)).toNat = w.toNat / 2 ^ k * 2 ^ k := by
  have hlt : w.toNat / 2 ^ k * 2 ^ k < 2 ^ 17 := (Nat.div_mul_le_self ..).trans_lt w.isLt
  rw [← BitVec.shiftLeft_ushiftRight, BitVec.toNat_shiftLeft, BitVec.toNat_ushiftRight, Nat.shiftLeft_eq,
    Nat.shiftRight_eq_div_pow, Nat.mod_eq_of_lt hlt]

/-- A row whose mask is all bits from bit `k` up matches the `2 ^ k` words from its pattern on. -/
theorem and_highMask_eq_iff (w pattern : BusWord) {k : Nat} (hpattern : 2 ^ k ∣ pattern.toNat) :
    w &&& (BitVec.allOnes 17 <<< k) = pattern ↔ pattern.toNat ≤ w.toNat ∧ w.toNat < pattern.toNat + 2 ^ k := by
  obtain ⟨q, hq⟩ := hpattern
  have hpos : 0 < 2 ^ k := Nat.two_pow_pos k
  rw [← BitVec.toNat_inj, and_highMask_toNat, hq, Nat.mul_comm, Nat.mul_right_inj hpos.ne',
    Nat.div_eq_iff hpos, Nat.mul_comm q, ← Nat.lt_iff_le_pred (by omega)]

/-- The table tries its first row, and then the rest. -/
theorem find_maskRow_cons (k : Nat) (w : BusWord) (op : BusOp) (mask pattern : BusWord) (rows : List MaskRow)
    (hmask : mask = BitVec.allOnes 17 <<< k) (hpattern : 2 ^ k ∣ pattern.toNat) :
    ((⟨op, mask, pattern⟩ :: rows).find? fun r => w &&& r.mask == r.pattern).map MaskRow.op =
      if pattern.toNat ≤ w.toNat ∧ w.toNat < pattern.toNat + 2 ^ k then some op
      else (rows.find? fun r => w &&& r.mask == r.pattern).map MaskRow.op := by
  have hmatch := and_highMask_eq_iff w pattern hpattern
  rw [← hmask] at hmatch
  by_cases h : w &&& mask = pattern
  · rw [if_pos (hmatch.1 h)]
    simp [h]
  · rw [if_neg (mt hmatch.2 h)]
    simp [h]

/-- What the table selects: its six console rows together match the numbers 0x1E000 to 0x1E7CF. -/
theorem selectByMask_eq (w : BusWord) :
    selectByMask w =
      if w.toNat = 0x1EFFF then some .uartWr
      else if w.toNat = 0x0EFFF then some .uartRd
      else if 0x1E000 ≤ w.toNat ∧ w.toNat ≤ 0x1E7CF then some .conWr
      else if 0x10000 ≤ w.toNat then some .ramWr
      else some .ramRd := by
  have hw := w.isLt
  rw [selectByMask, maskTable, find_maskRow_cons 0, find_maskRow_cons 0, find_maskRow_cons 10, find_maskRow_cons 9,
    find_maskRow_cons 8, find_maskRow_cons 7, find_maskRow_cons 6, find_maskRow_cons 4, find_maskRow_cons 16,
    find_maskRow_cons 16]
  · simp only [BitVec.reduceToNat, Nat.reducePow]
    grind
  all_goals decide

/-- Bit 16 of a transaction's word is its direction, and the rest its address (R90). -/
theorem word_toNat (t : Transaction) :
    t.word.toNat = (if t.isWrite = true then 0x10000 else 0) + t.addr.toNat := by
  rw [← busWord_eq, busWord, BitVec.toNat_cons', Nat.shiftLeft_eq]
  cases t.isWrite <;> rfl

/-- Settles O2: the table's numbers are the reference configuration's addresses with the direction in bit 16. -/
theorem maskTableAgreesWithAddressDecode : Obligations.MaskTableAgreesWithAddressDecode := by
  intro t
  have haddr := t.addr.isLt
  rw [selectByMask_eq, word_toNat, decode, decodeWrite_reference, decodeRead_reference]
  cases t.isWrite
  · simp only [Bool.false_eq_true, if_false]
    grind [BusOp.withOperands]
  · simp only [if_true]
    grind [BusOp.withOperands]

/-- Settles O1: eight words, read by the decode of the reference configuration. -/
theorem specWordsDecode : Obligations.SpecWordsDecode := by
  unfold Obligations.SpecWordsDecode
  decide

end Sys2Proof.Machine
end

section
/-!
PROOFS. Transactions (40_bus_dispatch.md R120 to R128, 41_uart.md R140, 60_exceptions.md R220, R221, R225): what a
transaction returns and when it asks for a halt, what it leaves alone, and the refusals.
-/

namespace Sys2Proof.Machine

/-! ### The halt request and the halt check (R144, R221) -/

theorem exec_requestHalt (s : State) : exec .requestHalt s = .next s.requestHalt := rfl

theorem exec_putchar (s : State) (v : Byte) : exec (.putchar v) s = .next (s.putChar v) := rfl

theorem State.requestHalt_of_running {s : State} (h : s.running = true) :
    s.requestHalt = { s with running := false, haltReports := s.haltReports + 1 } := if_pos h

theorem State.requestHalt_of_halted {s : State} (h : s.running = false) : s.requestHalt = s :=
  if_neg (Bool.eq_false_iff.1 h)

/-- The end of a transaction: the result, and one report where `halt_req` stops a run (R90, R144, R221). -/
theorem State.settle_eq (s : State) (d : Option Byte) (h : Bool) :
    s.settle d h = { s with
      returned := some ⟨d, h⟩
      running := s.running && !h
      haltReports := if s.running && h then s.haltReports + 1 else s.haltReports } := by
  cases h with
  | false => simp [State.settle_false]
  | true => rw [State.settle_true, State.settle_haltReports]; simp

/-- Settles O18, the two cases of `requestHalt` and that the second one follows the first. -/
theorem requestHaltStopsAndReports : Obligations.RequestHaltStopsAndReports := by
  refine fun s => ⟨fun h => ?_, fun h => ?_, ?_⟩
  · rw [exec_requestHalt, State.requestHalt_of_running h]
  · rw [exec_requestHalt, State.requestHalt_of_halted h]
  · rw [execAll_cons_of_next (exec_requestHalt s), execAll_cons_of_next (exec_requestHalt _), execAll,
      exec_requestHalt, State.requestHalt_idem]

/-- Settles O19: the emit and the printed character do not interfere, and the rest is the end of a transaction. -/
theorem uartWriteEmitsAndPrints : Obligations.UartWriteEmitsAndPrints := by
  intro s v pc
  refine ⟨s.uartWrite v pc, s.putChar v, exec_uartWr s v pc, exec_putchar s v, ?_⟩
  have hcheck : s.haltCheck pc = decide (s.haltAddress = some pc) := rfl
  rw [State.uartWrite, State.emit_putChar, State.settle_eq, hcheck]
  simp [State.emit]

/-! ### The halt request of a transaction (R220) -/

/-- The `halt_req` of a transaction: it is a UART access whose program counter equals the halt address (R220). -/
def State.haltRequest (s : State) (t : Transaction) : Bool :=
  decide (t.addr.toNat = s.config.uartAddr ∧ s.haltAddress = some t.pc)

theorem State.haltRequest_of_uart {s : State} {t : Transaction} (h : t.addr.toNat = s.config.uartAddr) :
    s.haltRequest t = s.haltCheck t.pc := by
  simp [State.haltRequest, State.haltCheck, h]

theorem State.haltRequest_of_not_uart {s : State} {t : Transaction} (h : t.addr.toNat ≠ s.config.uartAddr) :
    s.haltRequest t = false := by
  simp [State.haltRequest, h]

/-- Without a halt address no transaction asks for a halt. -/
theorem State.haltRequest_of_none {s : State} (h : s.haltAddress = none) (t : Transaction) :
    s.haltRequest t = false := by
  simp [State.haltRequest, h]

/-- A transaction ends by returning its `halt_req`, and a byte exactly for a read; up to that end it changes neither
`running` nor the reports. -/
theorem State.exists_transact_eq_settle (s : State) (t : Transaction) :
    ∃ u d, s.transact t = State.settle u d (s.haltRequest t) ∧ u.running = s.running ∧
      u.haltReports = s.haltReports ∧ d.isSome = !t.isWrite := by
  unfold State.transact
  cases hdir : t.isWrite with
  | true =>
    rw [if_pos rfl]
    have huart := writeTakenBy_eq_uartWr_iff s.config_wellFormed t.addr
    cases htaken : writeTakenBy s.config t.addr with
    | none =>
      have hnot : t.addr.toNat ≠ s.config.uartAddr := by simp [← huart, htaken]
      rw [State.busWrite_of_not_taken htaken, State.haltRequest_of_not_uart hnot]
      exact ⟨_, none, rfl, rfl, rfl, rfl⟩
    | some k =>
      cases k with
      | uartWr =>
        rw [State.busWrite_of_uartWr htaken, State.haltRequest_of_uart (huart.1 htaken)]
        exact ⟨_, none, rfl, by simp, by simp, rfl⟩
      | conWr =>
        have hnot : t.addr.toNat ≠ s.config.uartAddr := by simp [← huart, htaken]
        rw [State.busWrite_of_conWr htaken, State.haltRequest_of_not_uart hnot]
        exact ⟨_, none, rfl, rfl, rfl, rfl⟩
  | false =>
    rw [if_neg Bool.false_ne_true]
    by_cases huart : t.addr.toNat = s.config.uartAddr
    · rw [State.busRead_of_uartRd ((readTakenBy_eq_uartRd_iff _ _).2 huart), State.haltRequest_of_uart huart]
      exact ⟨_, some _, rfl, rfl, rfl, rfl⟩
    · rw [State.busRead_of_not_taken ((readTakenBy_eq_none_iff _ _).2 huart), State.haltRequest_of_not_uart huart]
      exact ⟨s, some _, rfl, rfl, rfl, rfl⟩

/-- Settles O24: a transaction is its decoded operation, and its end returns its `halt_req`. -/
theorem onlyUartAccessesRequestHalts : Obligations.OnlyUartAccessesRequestHalts := by
  intro s t
  obtain ⟨u, d, hu, -, -, hd⟩ := s.exists_transact_eq_settle t
  refine ⟨s.transact t, d, exec_decode s t, ?_, hd⟩
  rw [hu, State.settle_returned, State.haltRequest]

/-! ### What a transaction leaves alone -/

/-- A byte of RAM changes by a write to its own address that no handler takes, and by nothing else. -/
theorem State.transact_ramByte_of_not_stored (s : State) {t : Transaction} {a : Nat}
    (h : t.isWrite = false ∨ writeTakenBy s.config t.addr ≠ none ∨ a ≠ t.addr.toNat) :
    (s.transact t).ramByte a = s.ramByte a := by
  by_cases ha : a = t.addr.toNat
  · unfold State.transact
    split
    case isTrue hw =>
      have htaken : writeTakenBy s.config t.addr ≠ none := by
        rcases h with hread | htaken | hne
        · exact absurd (hread.symm.trans hw) Bool.false_ne_true
        · exact htaken
        · exact absurd ha hne
      exact State.ramByte_congr (s.busWrite_config _ _ _) (State.busWrite_ram_of_taken htaken _ _) a
    case isFalse => exact State.ramByte_congr (s.busRead_config _ _) (s.busRead_ram _ _) a
  · exact s.transact_ramByte fun _ => ha

theorem State.transact_of_isWrite {t : Transaction} (h : t.isWrite = true) (s : State) :
    s.transact t = s.busWrite t.addr t.wdata t.pc := if_pos h

theorem State.transact_of_isRead {t : Transaction} (h : t.isWrite = false) (s : State) :
    s.transact t = s.busRead t.addr t.pc := if_neg (Bool.eq_false_iff.1 h)

/-- Settles O15, by the field laws of `transact`, `busRead` and `busWrite`. -/
theorem transactionFrame : Obligations.TransactionFrame := by
  intro s u t h
  obtain rfl : s.transact t = u := Host.Outcome.next.inj ((exec_decode s t).symm.trans h)
  refine ⟨by simp, fun hread => ?_, fun hwrite => ?_, fun a => s.transact_ramByte_of_not_stored⟩
  · rw [State.transact_of_isRead hread]; simp
  · rw [State.transact_of_isWrite hwrite, State.busWrite_pendingInput]

/-- In every state that meets the invariant, RAM under a write handler still holds `RAM_INIT` (R128). -/
theorem State.Inv.ramByte_of_writeTakenBy {s : State} (h : s.Inv) {addr : Address}
    (htaken : writeTakenBy s.config addr ≠ none) : s.ramByte addr.toNat = s.config.ramInit.getD addr.toNat 0 := by
  refine State.ramByte_of_unlisted fun cell hcell heq => htaken ?_
  rw [writeTakenBy, ← heq, h.shadow cell hcell]

/-- Settles O16: the read falls back to RAM, where the invariant lets no write arrive. -/
theorem shadowRamReadsItsResetContents : Obligations.ShadowRamReadsItsResetContents := by
  intro s addr pc hinv htaken hfree
  refine ⟨s.busRead addr pc, exec_busRd s addr pc, ?_⟩
  rw [State.busRead_of_not_taken hfree, State.ramRead_eq, hinv.ramByte_of_writeTakenBy htaken]

/-! ### Bus operations at an address that does not select them (log 13) -/

theorem exec_ramWr_refused {s : State} {addr : Address} (h : writeTakenBy s.config addr ≠ none) (v : Byte)
    (pc : Address) : exec (.ramWr addr v pc) s = .refused .notSelected := if_neg h

theorem exec_ramRd_refused {s : State} {addr : Address} (h : readTakenBy s.config addr ≠ none) (pc : Address) :
    exec (.ramRd addr pc) s = .refused .notSelected := if_neg h

theorem exec_conWr_refused {s : State} {addr : Address} (h : writeTakenBy s.config addr ≠ some .conWr) (v : Byte)
    (pc : Address) : exec (.conWr addr v pc) s = .refused .notSelected := if_neg h

/-- Settles O13: the refusing branch of each of the three operations. -/
theorem unselectedBusOperationsAreRefused : Obligations.UnselectedBusOperationsAreRefused :=
  fun _ _ v pc => ⟨fun h => exec_ramWr_refused h v pc, fun h => exec_ramRd_refused h pc,
    fun h => exec_conWr_refused h v pc⟩

end Sys2Proof.Machine
end

section
/-!
PROOFS. The Monitor, the Input Event Adapter and construction (43_host_monitor.md R190 to R201, 42_console.md R165,
70_reset_and_hazards.md R260, 40_bus_dispatch.md R125): what each operation does in HALTED and RUNNING, operand range by
operand range.
-/

namespace Sys2Proof.Machine

/-! ### Operations accepted only in HALTED (R200, R206) -/

theorem State.whileHalted_of_halted {s : State} (h : s.running = false) (k : Result) : s.whileHalted k = k :=
  if_neg (Bool.eq_false_iff.1 h)

theorem State.whileHalted_of_running {s : State} (h : s.running = true) (k : Result) :
    s.whileHalted k = .refused .onlyWhileHalted := if_pos h

/-- Such an operation completes in HALTED alone. -/
theorem State.whileHalted_eq_next {s t : State} {k : Result} (h : s.whileHalted k = .next t) :
    s.running = false ∧ k = .next t := by
  cases hr : s.running with
  | false => exact ⟨rfl, (State.whileHalted_of_halted hr k).symm.trans h⟩
  | true =>
    rw [State.whileHalted_of_running hr] at h
    cases h

/-- Settles O49: each of the six operations is guarded by `whileHalted`. -/
theorem commandsAreRefusedWhileRunning : Obligations.CommandsAreRefusedWhileRunning := by
  intro s h
  have refuses (k : Result) : s.whileHalted k = .refused .onlyWhileHalted := State.whileHalted_of_running h k
  exact ⟨fun _ _ => refuses _, fun _ => refuses _, fun _ => refuses _, refuses _, refuses _, fun _ => refuses _⟩

theorem exec_run {s : State} (h : s.running = false) : exec .run s = .next s.resume :=
  State.whileHalted_of_halted h _

theorem exec_enterAt {s : State} (h : s.running = false) (a : Address) : exec (.enterAt a) s = .next (s.setPc a) :=
  State.whileHalted_of_halted h _

/-- Settles O44: RUN is `resume`, which sets the one flag. -/
theorem runGoesToRunning : Obligations.RunGoesToRunning := fun _ h => exec_run h

/-- Settles O46: ENTER_AT is `setPc`, which writes the one field. -/
theorem enterAtSetsTheProgramCounter : Obligations.EnterAtSetsTheProgramCounter := fun _ a h => exec_enterAt h a

/-! ### Addresses given as unbounded numbers (R131) -/

theorem hostAddress_of_le {a : Nat} (h : a ≤ 0xFFFF) : hostAddress a = some (BitVec.ofNat 16 a) := if_pos h

theorem hostAddress_of_lt {a : Nat} (h : 0xFFFF < a) : hostAddress a = none := if_neg (Nat.not_le.2 h)

theorem exec_setHalt_none {s : State} (h : s.running = false) :
    exec (.setHalt none) s = .next (s.setHaltAddress none) := State.whileHalted_of_halted h _

theorem exec_setHalt_of_le {s : State} (h : s.running = false) {a : Nat} (ha : a ≤ 0xFFFF) :
    exec (.setHalt (some a)) s = .next (s.setHaltAddress (some (BitVec.ofNat 16 a))) := by
  simp only [exec, execSetHalt, State.whileHalted_of_halted h, hostAddress_of_le ha]

theorem exec_setHalt_of_lt {s : State} (h : s.running = false) {a : Nat} (ha : 0xFFFF < a) :
    exec (.setHalt (some a)) s = .refused .addressRange := by
  simp only [exec, execSetHalt, State.whileHalted_of_halted h, hostAddress_of_lt ha]

theorem exec_watch_of_le {s : State} (h : s.running = false) {a : Nat} (ha : a ≤ 0xFFFF) :
    exec (.watch a) s = .next (s.setWatch (BitVec.ofNat 16 a)) := by
  simp only [exec, execWatch, State.whileHalted_of_halted h, hostAddress_of_le ha]

theorem exec_watch_of_lt {s : State} (h : s.running = false) {a : Nat} (ha : 0xFFFF < a) :
    exec (.watch a) s = .refused .addressRange := by
  simp only [exec, execWatch, State.whileHalted_of_halted h, hostAddress_of_lt ha]

theorem State.setWatch_of_linked {s : State} (h : s.config.haltLinked = true) (a : Address) :
    s.setWatch a = { s with watchAddress := some a, haltAddress := some a } := if_pos h

theorem State.setWatch_of_not_linked {s : State} (h : s.config.haltLinked = false) (a : Address) :
    s.setWatch a = { s with watchAddress := some a } := if_neg (Bool.eq_false_iff.1 h)

/-- Settles O23: no address, one in range, one out of range. -/
theorem setHaltConfiguresTheAddress : Obligations.SetHaltConfiguresTheAddress :=
  fun _ h => ⟨exec_setHalt_none h, fun _ ha => exec_setHalt_of_le h ha, fun _ ha => exec_setHalt_of_lt h ha⟩

/-- Settles O39: in range linked and not linked, and out of range. -/
theorem watchSetsTheAddress : Obligations.WatchSetsTheAddress := by
  refine fun s a h => ⟨fun ha hlinked => ?_, fun ha hlinked => ?_, exec_watch_of_lt h⟩
  · rw [exec_watch_of_le h ha, State.setWatch_of_linked hlinked]
  · rw [exec_watch_of_le h ha, State.setWatch_of_not_linked hlinked]

/-! ### LOAD's range test and its failure (R190) -/

theorem exec_load_none {s : State} (h : s.running = false) (start : Nat) :
    exec (.load none start) s = .next s.reportLoadFailure := State.whileHalted_of_halted h _

theorem exec_load_some {s : State} (h : s.running = false) (bs : List Byte) (start : Nat) :
    exec (.load (some bs) start) s =
      if loadPastEnd start bs.length = true then .refused .addressRange
      else .next (s.transactAll (loadWrites s.cpu.pc start bs)) := State.whileHalted_of_halted h _

/-- A LOAD inside the address space is its writes, one transaction after the other. -/
theorem exec_load_of_le {s : State} (h : s.running = false) {bs : List Byte} {start : Nat}
    (hrange : start + bs.length ≤ 0x10000) :
    exec (.load (some bs) start) s = .next (s.transactAll (loadWrites s.cpu.pc start bs)) := by
  have hend : loadPastEnd start bs.length = false := by simp [loadPastEnd, lastAddress]; omega
  rw [exec_load_some h, hend, if_neg Bool.false_ne_true]

/-- Settles O36: no bytes, and a last byte past the address space. -/
theorem loadFailsWhole : Obligations.LoadFailsWhole := by
  refine fun s bs start h => ⟨exec_load_none h start, fun hrange => ?_⟩
  have hend : loadPastEnd start bs.length = true := by simp [loadPastEnd, lastAddress]; omega
  rw [exec_load_some h, if_pos hend]

/-! ### PRESENT, CANCEL, TERMINATE and TEXT_INPUT (R165, R195, R197, R201) -/

theorem exec_present (s : State) (ok : Bool) : exec (.present ok) s = .next (s.present ok) := rfl

theorem State.present_of_dirty {s : State} (h : s.updated = true) :
    s.present true = { s with surface := s.grid, updated := false } := by
  simp [State.present, h]

theorem State.present_of_clean {s : State} (h : s.updated = false) (ok : Bool) : s.present ok = s := by
  simp [State.present, h]

theorem State.present_failed (s : State) : s.present false = s := by simp [State.present]

/-- Settles O32: dirty and successful, failed, and clean. -/
theorem presentCopiesADirtyGrid : Obligations.PresentCopiesADirtyGrid := by
  refine fun s => ⟨fun h => ?_, ?_, fun h => ?_⟩
  · rw [exec_present, State.present_of_dirty h]
  · rw [exec_present, State.present_failed]
  · rw [exec_present, State.present_of_clean h]

theorem exec_cancel (s : State) : exec .cancel s = .next s.stopSilently := rfl

theorem exec_terminate (s : State) : exec .terminate s = .next { s.stopSilently with terminated := true } := rfl

/-- Settles O47: `stopSilently` clears the one flag. -/
theorem cancelAndTerminateAreSilent : Obligations.CancelAndTerminateAreSilent :=
  fun s => ⟨exec_cancel s, exec_terminate s⟩

theorem textByte_of_le (c : Config) {cp : Nat} (h : cp ≤ 0xFF) (rest : List Nat) :
    textByte c (cp :: rest) = .ok (some (BitVec.ofNat 8 cp)) := if_pos h

theorem textByte_refused {c : Config} (hc : c.inputNarrow = .refuse) {cp : Nat} (h : 0xFF < cp) (rest : List Nat) :
    textByte c (cp :: rest) = .error .inputRange := by
  rw [textByte, if_neg (Nat.not_le.2 h), hc]

theorem textByte_narrowed {c : Config} (hc : c.inputNarrow = .narrow) {cp : Nat} (h : 0xFF < cp) (rest : List Nat) :
    textByte c (cp :: rest) = .ok (some (Config.narrowed cp)) := by
  rw [textByte, if_neg (Nat.not_le.2 h), hc]

theorem exec_textInput_of_ok {s : State} {text : List Nat} {b : Byte} (h : textByte s.config text = .ok (some b)) :
    exec (.textInput text) s = .next (s.setPending b) := by
  rw [exec, execTextInput, h]

theorem exec_textInput_of_error {s : State} {text : List Nat} {r : Refusal} (h : textByte s.config text = .error r) :
    exec (.textInput text) s = .refused r := by
  rw [exec, execTextInput, h]

/-- Settles O48, by the byte that the first code point makes. -/
theorem textInputPushesTheFirstCharacter : Obligations.TextInputPushesTheFirstCharacter := by
  refine fun s cp rest => ⟨rfl, fun h => ?_, fun h hnarrow => ?_, fun h hnarrow => ⟨Config.narrowed cp, ?_⟩⟩
  · exact exec_textInput_of_ok (textByte_of_le s.config h rest)
  · exact exec_textInput_of_error (textByte_refused hnarrow h rest)
  · exact exec_textInput_of_ok (textByte_narrowed hnarrow h rest)

/-! ### RESET_VECTOR_LOAD (R194) -/

/-- Low byte first: the word of two bytes (R65). -/
theorem littleEndian_toNat (lo hi : Byte) : (littleEndian lo hi).toNat = lo.toNat + 256 * hi.toNat := by
  rw [littleEndian, BitVec.toNat_append, ← Nat.shiftLeft_add_eq_or_of_lt lo.isLt, Nat.shiftLeft_eq]
  omega

/-- The vector's two addresses are not truncated to 16 bits (R9). -/
theorem resetVector_toNat {c : Config} (hc : configWellFormed c = true) :
    (BitVec.ofNat 16 c.resetVector : Address).toNat = c.resetVector ∧
      (BitVec.ofNat 16 (c.resetVector + 1) : Address).toNat = c.resetVector + 1 := by
  obtain ⟨-, -, -, hvector, -⟩ := (configWellFormed_iff c).1 hc
  unfold lastAddress at hvector
  rw [BitVec.toNat_ofNat, BitVec.toNat_ofNat]
  omega

theorem State.busData_of_not_taken {s : State} {addr : Address} (h : readTakenBy s.config addr = none) :
    s.busData addr = s.ramByte addr.toNat := by
  rw [State.busData, h]

theorem exec_resetVectorLoad {s : State} (h : s.running = false) {lo hi : Address}
    (hlo : lo = BitVec.ofNat 16 s.config.resetVector) (hhi : hi = BitVec.ofNat 16 (s.config.resetVector + 1)) :
    exec .resetVectorLoad s =
      .next (((s.busRead lo s.cpu.pc).busRead hi s.cpu.pc).setPc
        (littleEndian (s.busData lo) ((s.busRead lo s.cpu.pc).busData hi))) := by
  subst hlo hhi
  exact State.whileHalted_of_halted h _

/-- Settles O45: both reads fall back to RAM, and neither changes it. -/
theorem resetVectorIsLittleEndian : Obligations.ResetVectorIsLittleEndian := by
  intro s h huart huart'
  obtain ⟨hlo, hhi⟩ := resetVector_toNat s.config_wellFormed
  generalize hloAddr : (BitVec.ofNat 16 s.config.resetVector : Address) = lo at hlo
  generalize hhiAddr : (BitVec.ofNat 16 (s.config.resetVector + 1) : Address) = hi at hhi
  have hloFree : readTakenBy s.config lo = none := (readTakenBy_eq_none_iff _ _).2 (by omega)
  have hhiFree : readTakenBy s.config hi = none := (readTakenBy_eq_none_iff _ _).2 (by omega)
  have hhiFree' : readTakenBy (s.ramRead lo).config hi = none := by rw [State.ramRead_config, hhiFree]
  have hsame : (s.ramRead lo).ramByte hi.toNat = s.ramByte hi.toNat := rfl
  refine ⟨_, exec_resetVectorLoad h hloAddr.symm hhiAddr.symm, ?_, ?_⟩
  · rw [State.setPc_cpu, littleEndian_toNat, State.busRead_of_not_taken hloFree, State.busData_of_not_taken hloFree,
      State.busData_of_not_taken hhiFree', hsame, hlo, hhi]
  · rw [State.busRead_of_not_taken hloFree, State.busRead_of_not_taken hhiFree', State.ramRead_eq, hsame, hhi]
    rfl

/-! ### Construction and RESET (R125, R260) -/

/-- Every cell of a blank grid is blank (R11). -/
theorem Grid.cell?_blank {w h x y : Nat} (hx : x < w) (hy : y < h) :
    Grid.cell? (Grid.blank w h) x y = some Cell.blank := by
  simp [Grid.cell?, Grid.blank, hx, hy]

/-- A machine just made reads `RAM_INIT` everywhere (R260). -/
theorem State.constructed_ramByte (c : WellFormedConfig) (n : Nat) (q : List Request) (p : List ScriptStep) (a : Nat) :
    (State.constructed c n q p).ramByte a = c.ramInit.getD a 0 :=
  State.ramByte_of_unlisted (by simp [State.constructed])

/-- Settles O50, by the fields of the constructed machine; its grid is blank and no byte is listed. -/
theorem resetStateValues : Obligations.ResetStateValues :=
  ⟨rfl, rfl, rfl, rfl, rfl, rfl, rfl, rfl, rfl, rfl, rfl, rfl, fun _ _ => Grid.cell?_blank,
    State.constructed_ramByte _ _ _ _⟩

/-- Settles O51, by the fields of the machine that RESET constructs. -/
theorem resetConstructsTheMachine : Obligations.ResetConstructsTheMachine := fun s =>
  ⟨_, exec_reset s, State.constructed_ramByte _ _ _ _, fun _ _ => Grid.cell?_blank, rfl, rfl, rfl, rfl, rfl, rfl, rfl,
    rfl, rfl, rfl, rfl, (Grid.ofCells_size ..).1, (Grid.ofCells_size ..).2, rfl, rfl, rfl⟩

/-- Settles O57: the reset state is a constructed machine. -/
theorem resetStateMeetsTheInvariant : Obligations.ResetStateMeetsTheInvariant := State.constructed_inv _ _ _ _

theorem gridNotEmpty_iff (c : Config) : gridNotEmpty c = true ↔ 1 ≤ c.width ∧ 1 ≤ c.height := by
  simp [gridNotEmpty]

theorem widthsValid_iff (c : Config) :
    widthsValid c = true ↔ c.addrWidth = 16 ∧ c.dataWidth = 8 ∧ c.ramSize = 0x10000 := by
  simp [widthsValid, and_assoc]

/-- With a grid, the addresses in range are the console's last, the UART's and the vector's second (R9). -/
theorem addressesInRange_iff {c : Config} (hw : 1 ≤ c.width) (hh : 1 ≤ c.height) :
    addressesInRange c = true ↔
      consoleLast c ≤ 0xFFFF ∧ c.uartAddr ≤ 0xFFFF ∧ c.resetVector + 1 ≤ 0xFFFF := by
  have hcells : 0 < c.width * c.height := Nat.mul_pos hw hh
  have hfirst : c.consoleBase ≤ consoleLast c := by unfold consoleLast; omega
  simp [addressesInRange, regions, consoleRegion, uartRegion, Region.inRange, hfirst, and_assoc]

theorem configRefusal_of_empty {c : Config} (hgrid : gridNotEmpty c = false) : configRefusal c = .emptyGrid := by
  rw [configRefusal, hgrid]; rfl

theorem configRefusal_of_range {c : Config} (hgrid : gridNotEmpty c = true)
    (hrange : (widthsValid c && addressesInRange c) = false) : configRefusal c = .addressRange := by
  rw [configRefusal, hgrid, hrange]; rfl

theorem configRefusal_of_overlap {c : Config} (hgrid : gridNotEmpty c = true)
    (hrange : (widthsValid c && addressesInRange c) = true) : configRefusal c = .regionOverlap := by
  rw [configRefusal, hgrid, hrange]; rfl

theorem construct_of_empty {c : Config} (h : c.width = 0 ∨ c.height = 0) (n : Nat) (q : List Request)
    (p : List ScriptStep) : construct c n q p = .refused .emptyGrid := by
  have hgrid : gridNotEmpty c = false := by rw [Bool.eq_false_iff, Ne, gridNotEmpty_iff]; omega
  have hill : ¬ configWellFormed c = true := by simp [configWellFormed, hgrid]
  rw [construct_illFormed hill, configRefusal_of_empty hgrid]

theorem construct_of_range {c : Config} (hw : 1 ≤ c.width) (hh : 1 ≤ c.height)
    (h : ¬ ((c.addrWidth = 16 ∧ c.dataWidth = 8 ∧ c.ramSize = 0x10000) ∧
      consoleLast c ≤ 0xFFFF ∧ c.uartAddr ≤ 0xFFFF ∧ c.resetVector + 1 ≤ 0xFFFF))
    (n : Nat) (q : List Request) (p : List ScriptStep) : construct c n q p = .refused .addressRange := by
  have hrange : (widthsValid c && addressesInRange c) = false := by
    rwa [Bool.eq_false_iff, Ne, Bool.and_eq_true, widthsValid_iff, addressesInRange_iff hw hh]
  have hill : ¬ configWellFormed c = true := by
    rw [configWellFormed, Bool.and_assoc (gridNotEmpty c), hrange]
    simp
  rw [construct_illFormed hill, configRefusal_of_range ((gridNotEmpty_iff c).2 ⟨hw, hh⟩) hrange]

theorem construct_of_overlap {c : Config} (hw : 1 ≤ c.width) (hh : 1 ≤ c.height)
    (hwidths : c.addrWidth = 16 ∧ c.dataWidth = 8 ∧ c.ramSize = 0x10000)
    (haddrs : consoleLast c ≤ 0xFFFF ∧ c.uartAddr ≤ 0xFFFF ∧ c.resetVector + 1 ≤ 0xFFFF)
    (h : c.consoleBase ≤ c.uartAddr ∧ c.uartAddr ≤ consoleLast c)
    (n : Nat) (q : List Request) (p : List ScriptStep) : construct c n q p = .refused .regionOverlap := by
  have hrange : (widthsValid c && addressesInRange c) = true := by
    rw [Bool.and_eq_true, widthsValid_iff, addressesInRange_iff hw hh]
    exact ⟨hwidths, haddrs⟩
  have hill : ¬ configWellFormed c = true := fun hc => by
    obtain ⟨-, -, -, -, hdisjoint, -⟩ := (configWellFormed_iff c).1 hc
    exact hdisjoint h
  rw [construct_illFormed hill, configRefusal_of_overlap ((gridNotEmpty_iff c).2 ⟨hw, hh⟩) hrange]

/-- The relations of R9 and R125 with the console's end written out. -/
theorem configWellFormed_iff_relations (c : Config) :
    configWellFormed c = true ↔
      1 ≤ c.width ∧ 1 ≤ c.height ∧ c.addrWidth = 16 ∧ c.dataWidth = 8 ∧ c.ramSize = 0x10000 ∧
      c.consoleBase + c.width * c.height - 1 ≤ 0xFFFF ∧ c.uartAddr ≤ 0xFFFF ∧ c.resetVector + 1 ≤ 0xFFFF ∧
      (c.uartAddr < c.consoleBase ∨ c.consoleBase + c.width * c.height - 1 < c.uartAddr) := by
  rw [configWellFormed_iff, consoleLast, lastAddress]
  constructor
  · omega
  · rintro ⟨hw, hh, hrest⟩
    have hcells : 0 < c.width * c.height := Nat.mul_pos hw hh
    omega

/-- Settles O52: the refusals in the order of the check, and the relations a machine's configuration has passed. -/
theorem illFormedConfigurationsBuildNoMachine : Obligations.IllFormedConfigurationsBuildNoMachine := by
  refine ⟨fun c n q p => ⟨fun h => construct_of_empty h n q p, fun hw hh h => ?_,
    fun hw hh haddr hdata hram hlast huart hvector => ⟨fun h => ?_, fun h => ?_⟩⟩,
    fun s => (configWellFormed_iff_relations s.config).1 s.config_wellFormed⟩
  · refine construct_of_range hw hh ?_ n q p
    rw [consoleLast]
    omega
  · exact construct_of_overlap hw hh ⟨haddr, hdata, hram⟩ ⟨hlast, huart, hvector⟩ h n q p
  · have hc : configWellFormed c = true :=
      (configWellFormed_iff_relations c).2 ⟨hw, hh, haddr, hdata, hram, hlast, huart, hvector, h⟩
    exact ⟨_, construct_wellFormed hc n q p, rfl⟩

end Sys2Proof.Machine
end

section
/-!
PROOFS. The CPU and STEP (43_host_monitor.md R192, R198, 60_exceptions.md R225): a CPU instruction is transactions and a
new CPU state, so that STEP keeps what transactions keep.
-/

namespace Sys2Proof.Machine

/-! ### A CPU instruction as transactions (R198) -/

theorem State.transact_write (s : State) (addr : Address) (v : Byte) (pc : Address) :
    s.transact (.write addr v pc) = s.busWrite addr v pc := by
  rw [State.transact_of_isWrite (Transaction.write_isWrite addr v pc), Transaction.write_addr]; rfl

theorem State.transact_read (s : State) (addr pc : Address) : s.transact (.read addr pc) = s.busRead addr pc := by
  rw [State.transact_of_isRead (Transaction.read_isWrite addr pc), Transaction.read_addr]; rfl

theorem State.transactAll_cons (s : State) (t : Transaction) (ts : List Transaction) :
    s.transactAll (t :: ts) = (s.transact t).transactAll ts := rfl

/-- The CPU's new state, at the end of its instruction (R198). -/
def State.withCpu (s : State) (next : Cpu) : State := { s with cpu := next }

theorem State.perform_done (next : Cpu) (s : State) : State.perform (.done next) s = s.withCpu next := rfl

@[simp] theorem State.withCpu_watchAddress (s : State) (next : Cpu) :
    (s.withCpu next).watchAddress = s.watchAddress := rfl
@[simp] theorem State.withCpu_cpu (s : State) (next : Cpu) : (s.withCpu next).cpu = next := rfl

/-- Whatever the CPU does is transactions, one after the other, and then its next state. -/
theorem State.exists_perform_eq (r : CpuRun) (s : State) :
    ∃ ts next, State.perform r s = (s.transactAll ts).withCpu next := by
  induction r generalizing s with
  | done next => exact ⟨[], next, State.perform_done next s⟩
  | read addr pc k ih =>
    obtain ⟨ts, next, h⟩ := ih (s.busData addr) (s.busRead addr pc)
    refine ⟨.read addr pc :: ts, next, ?_⟩
    rw [State.transactAll_cons, State.transact_read, ← h, State.perform]
  | write addr v pc r ih =>
    obtain ⟨ts, next, h⟩ := ih (s.busWrite addr v pc)
    refine ⟨.write addr v pc :: ts, next, ?_⟩
    rw [State.transactAll_cons, State.transact_write, ← h, State.perform]

/-- A scripted instruction performs its transactions and leaves the CPU state it names (log 6). -/
theorem State.perform_scriptRun (next : Cpu) (ts : List Transaction) (s : State) :
    State.perform (scriptRun next ts) s = (s.transactAll ts).withCpu next := by
  induction ts generalizing s with
  | nil => rfl
  | cons t ts ih =>
    rw [scriptRun, State.transactAll_cons]
    split
    case isTrue hw => rw [State.transact_of_isWrite hw, State.perform, ih]
    case isFalse hr => rw [State.transact_of_isRead (Bool.eq_false_iff.2 hr), State.perform, ih]

/-! ### STEP (R192) -/

theorem exec_step (s : State) : exec .step s = .next s.stepCpu := rfl

/-- The post-step check is a halt request at the watch address. -/
theorem next_watchCheck (u : State) :
    (.next u.watchCheck : Result) = if u.watchAddress = some u.cpu.pc then exec .requestHalt u else .next u := by
  rw [State.watchCheck]
  split_ifs <;> rfl

/-- The byte that a read returns is the one the CPU goes on with (R90, R120). -/
theorem State.busRead_returned (s : State) (addr pc : Address) :
    ∃ h, (s.busRead addr pc).returned = some ⟨some (s.busData addr), h⟩ := by
  by_cases huart : addr.toNat = s.config.uartAddr
  · have htaken := (readTakenBy_eq_uartRd_iff s.config addr).2 huart
    refine ⟨s.haltCheck pc, ?_⟩
    rw [State.busRead_of_uartRd htaken, State.uartRead_returned, State.busData, htaken]
  · have hfree := (readTakenBy_eq_none_iff s.config addr).2 huart
    refine ⟨false, ?_⟩
    rw [State.busRead_of_not_taken hfree, State.busData_of_not_taken hfree]
    rfl

/-- Settles O40, by the equations of `perform`; without a script there is none to drop. -/
theorem stepPerformsTheCpuRun : Obligations.StepPerformsTheCpuRun := by
  refine ⟨fun s hscript => ⟨_, rfl, ?_⟩, fun _ _ => rfl, fun addr pc k s => ?_, fun addr v pc r s => ?_⟩
  · have hnext : s.nextRun = Config.cpuStep s.cpu := by rw [State.nextRun, hscript]
    have hdrop : s.dropScript = s := by rw [State.dropScript, hscript, List.tail_nil, ← hscript]
    rw [← next_watchCheck, exec_step, State.stepCpu, hnext, hdrop]
  · obtain ⟨h, hreturned⟩ := s.busRead_returned addr pc
    exact ⟨_, _, h, exec_busRd s addr pc, hreturned, rfl⟩
  · exact ⟨_, exec_busWr s addr v pc, rfl⟩

/-- STEP with a scripted instruction waiting, up to the post-step check. -/
theorem State.stepCpu_of_script {s : State} {i : ScriptStep} {rest : List ScriptStep} (h : s.cpuScript = i :: rest) :
    s.stepCpu =
      State.watchCheck ((State.transactAll { s with cpuScript := rest } i.accesses).withCpu
        { s.cpu with pc := i.pcAfter }) := by
  have hnext : s.nextRun = scriptRun { s.cpu with pc := i.pcAfter } i.accesses := by rw [State.nextRun, h]
  have hdrop : s.dropScript = { s with cpuScript := rest } := by rw [State.dropScript, h, List.tail_cons]
  rw [State.stepCpu, hnext, hdrop, State.perform_scriptRun]

/-- Settles O41: the transactions complete, and they leave the watch address. -/
theorem stepOfAScriptedCpu : Obligations.StepOfAScriptedCpu := by
  intro s i rest hscript
  refine ⟨_, execAll_decode i.accesses { s with cpuScript := rest }, ?_⟩
  rw [exec_step, State.stepCpu_of_script hscript, next_watchCheck]
  refine if_congr ?_ rfl rfl
  rw [State.withCpu_watchAddress, State.withCpu_cpu, State.transactAll_watchAddress]

/-! ### What STEP leaves alone -/

/-- RAM under a write handler survives every sequence of transactions. -/
theorem State.transactAll_ramByte_of_taken (s : State) (ts : List Transaction) {a : Nat}
    (h : writeHandlerAt (regions s.config) a ≠ none) : (s.transactAll ts).ramByte a = s.ramByte a := by
  induction ts generalizing s with
  | nil => rfl
  | cons t ts ih =>
    have hnotStored : t.isWrite = false ∨ writeTakenBy s.config t.addr ≠ none ∨ a ≠ t.addr.toNat := by
      by_cases ha : a = t.addr.toNat
      · exact .inr (.inl (by rwa [writeTakenBy, ← ha]))
      · exact .inr (.inr ha)
    rw [State.transactAll_cons, ih (s.transact t) (by rwa [State.transact_config]),
      s.transact_ramByte_of_not_stored hnotStored]

theorem State.stepCpu_ramByte_of_taken (s : State) {a : Nat} (h : writeHandlerAt (regions s.config) a ≠ none) :
    s.stepCpu.ramByte a = s.ramByte a := by
  obtain ⟨ts, next, hperform⟩ := State.exists_perform_eq s.nextRun s.dropScript
  rw [State.stepCpu, State.ramByte_congr (State.watchCheck_config _) (State.watchCheck_ram _), hperform]
  exact s.dropScript.transactAll_ramByte_of_taken ts h

/-- Settles O42, by the field laws of `perform` and `watchCheck`. -/
theorem stepFrame : Obligations.StepFrame := by
  refine fun s => ⟨s.stepCpu, exec_step s, ?_, ?_, ?_, ?_, ?_, ?_, ?_, ?_, ?_, fun a => s.stepCpu_ramByte_of_taken⟩
  all_goals simp [State.stepCpu]

/-! ### One report for each run that stops (R221, R225) -/

/-- From `s` to `t` the machine does not start to run, and there is one report more exactly if it stops. -/
structure State.HaltsOnce (s t : State) : Prop where
  noStart : t.running = true → s.running = true
  reports : t.haltReports = s.haltReports + if s.running = true ∧ t.running = false then 1 else 0

theorem State.HaltsOnce.of_same {s t : State} (hrunning : t.running = s.running)
    (hreports : t.haltReports = s.haltReports) : s.HaltsOnce t := by
  refine ⟨fun h => hrunning ▸ h, ?_⟩
  rw [hreports, hrunning, if_neg (by simp)]
  rfl

theorem State.HaltsOnce.trans {s t u : State} (h₁ : s.HaltsOnce t) (h₂ : t.HaltsOnce u) : s.HaltsOnce u := by
  obtain ⟨hstart₁, hreports₁⟩ := h₁
  obtain ⟨hstart₂, hreports₂⟩ := h₂
  refine ⟨fun h => hstart₁ (hstart₂ h), ?_⟩
  rw [hreports₂, hreports₁]
  cases ht : t.running with
  | true =>
    have hs : s.running = true := hstart₁ ht
    simp [hs]
  | false =>
    have hu : u.running = false := Bool.eq_false_iff.2 fun hu => by
      rw [hstart₂ hu] at ht
      cases ht
    simp [hu]

theorem State.HaltsOnce.settle (s : State) (d : Option Byte) (h : Bool) : s.HaltsOnce (s.settle d h) := by
  refine ⟨fun hrun => ?_, ?_⟩
  · rw [State.settle_running, Bool.and_eq_true] at hrun
    exact hrun.1
  · rw [State.settle_haltReports, State.settle_running]
    cases s.running <;> cases h <;> rfl

theorem State.HaltsOnce.requestHalt (s : State) : s.HaltsOnce s.requestHalt := by
  refine ⟨fun hrun => absurd hrun (by simp), ?_⟩
  rw [State.requestHalt_haltReports, State.requestHalt_running]
  cases s.running <;> rfl

theorem State.HaltsOnce.transact (s : State) (t : Transaction) : s.HaltsOnce (s.transact t) := by
  obtain ⟨u, d, hu, hrunning, hreports, -⟩ := s.exists_transact_eq_settle t
  rw [hu]
  exact (State.HaltsOnce.of_same hrunning hreports).trans (.settle u d _)

theorem State.HaltsOnce.transactAll (s : State) (ts : List Transaction) : s.HaltsOnce (s.transactAll ts) :=
  List.foldlRecOn ts State.transact (State.HaltsOnce.of_same rfl rfl) fun u hu t _ => hu.trans (.transact u t)

theorem State.HaltsOnce.watchCheck (s : State) : s.HaltsOnce s.watchCheck := by
  unfold State.watchCheck
  split
  · exact .requestHalt s
  · exact .of_same rfl rfl

theorem State.HaltsOnce.stepCpu (s : State) : s.HaltsOnce s.stepCpu := by
  obtain ⟨ts, next, hperform⟩ := State.exists_perform_eq s.nextRun s.dropScript
  have hdrop : s.HaltsOnce s.dropScript := .of_same rfl rfl
  have hcpu : (s.dropScript.transactAll ts).HaltsOnce ((s.dropScript.transactAll ts).withCpu next) := .of_same rfl rfl
  rw [State.stepCpu, hperform]
  exact hdrop.trans ((State.HaltsOnce.transactAll _ ts).trans (hcpu.trans (.watchCheck _)))

/-- Settles O25: a STEP does not start a run, and one that stops a run reports once. -/
theorem haltsDoNotNest : Obligations.HaltsDoNotNest := by
  refine ⟨fun s h => ?_, fun s t h => ?_⟩
  · rw [exec_requestHalt, State.requestHalt_of_halted h]
  · obtain rfl : s.stepCpu = t := Host.Outcome.next.inj h
    obtain ⟨hstart, hreports⟩ := State.HaltsOnce.stepCpu s
    exact ⟨hstart, hreports⟩

/-- A post-step check at the watch address ends in HALTED (R192). -/
theorem State.watchCheck_running {s : State} (h : s.watchAddress = some s.cpu.pc) : s.watchCheck.running = false := by
  rw [State.watchCheck, if_pos h, State.requestHalt_running]

@[simp] theorem State.stepCpu_watchAddress (s : State) : s.stepCpu.watchAddress = s.watchAddress := by
  simp [State.stepCpu]

/-- Settles O43: the check stops the machine, and a STEP that stops a run reports once. -/
theorem watchAddressHaltsOnce : Obligations.WatchAddressHaltsOnce := by
  intro s t h hwatch
  obtain rfl : s.stepCpu = t := Host.Outcome.next.inj h
  have hhalted : s.stepCpu.running = false := by
    refine State.watchCheck_running ?_
    rw [State.perform_watchAddress, State.dropScript_watchAddress, hwatch, State.stepCpu, State.watchCheck_cpu]
  refine ⟨hhalted, ?_⟩
  rw [(State.HaltsOnce.stepCpu s).reports, hhalted]
  simp

/-- Without a halt address transactions stop no run (R220). -/
theorem State.transactAll_running_of_none {s : State} (h : s.haltAddress = none) (ts : List Transaction) :
    (s.transactAll ts).running = s.running := by
  induction ts generalizing s with
  | nil => rfl
  | cons t ts ih =>
    obtain ⟨u, d, hu, hrunning, -⟩ := s.exists_transact_eq_settle t
    rw [State.transactAll_cons, ih (by rwa [State.transact_haltAddress]), hu, State.settle_running,
      State.haltRequest_of_none h, hrunning, Bool.not_false, Bool.and_true]

/-- A STEP stops a run at the watch address, or by a UART access where a halt address is configured (R205). -/
theorem State.stepCpu_stops {s : State} (hrun : s.running = true) (hstop : s.stepCpu.running = false) :
    s.watchAddress = some s.stepCpu.cpu.pc ∨ s.haltAddress ≠ none := by
  by_contra! hno
  obtain ⟨hwatch, hhalt⟩ := hno
  obtain ⟨ts, next, hperform⟩ := State.exists_perform_eq s.nextRun s.dropScript
  have hcheck : s.stepCpu = State.perform s.nextRun s.dropScript := by
    refine if_neg fun hat => hwatch ?_
    rw [← s.stepCpu_watchAddress, State.stepCpu, State.watchCheck_watchAddress, State.watchCheck_cpu, hat]
  have hrunning : (State.perform s.nextRun s.dropScript).running = s.running := by
    rw [hperform]
    exact State.transactAll_running_of_none (s := s.dropScript) hhalt ts
  rw [hcheck, hrunning, hrun] at hstop
  cases hstop

end Sys2Proof.Machine
end

section
/-!
PROOFS. What an operation that completes can do, said once (`Effect`), and the invariants that follow: the
configuration, the invariant of 10_state.md R39, the ways `running` and the dirty flag change (R31, R32, R205).
-/

namespace Sys2Proof.Machine

/-! ### The effects of operations -/

/-- `t` is `u` but for registers that hold operands of the host and the CPU: no such register is part of the console,
of RAM or of the run. -/
def State.SameButRegisters (u t : State) : Prop :=
  ∃ pending halt watch cpu failures, t = { u with
    pendingInput := pending, haltAddress := halt, watchAddress := watch, cpu := cpu, loadFailures := failures }

/-- What an operation can do to a state: transactions and then registers of the host (the bus operations, LOAD, the
adapter's and the Monitor's assignments), or one of the operations that have more to them. -/
inductive Effect (s : State) : Instr → State → Prop
  | transactions (i : Instr) (ts : List Transaction) {t : State} (h : (s.transactAll ts).SameButRegisters t) :
    Effect s i t
  | haltCheck (pc : Address) : Effect s (.haltCheck pc) (s.settle none (s.haltCheck pc))
  | requestHalt : Effect s .requestHalt s.requestHalt
  | putchar (v : Byte) : Effect s (.putchar v) (s.putChar v)
  | scroll : Effect s .scroll s.scroll
  | present (ok : Bool) : Effect s (.present ok) (s.present ok)
  | reset : Effect s .reset (State.constructed s.setup (s.resets + 1) s.inbox s.cpuScript)
  | step : Effect s .step s.stepCpu
  | run (h : s.running = false) : Effect s .run s.resume
  | cancel : Effect s .cancel s.stopSilently
  | terminate : Effect s .terminate { s.stopSilently with terminated := true }

/-- An operation that a transaction word selects is that transaction, if it completes (R93, log 13). -/
theorem exec_selectedByWord {i : Instr} {s t : State} (hi : i.selectedByWord = true) (h : exec i s = .next t) :
    ∃ tr, t = s.transact tr := by
  have key (hwf : i.wellFormed s.config = true) {tr : Transaction} (henc : encode s.config i = some tr) :
      t = s.transact tr := by
    have hdecode := decodeInvertsEncode s.config i tr s.config_wellFormed hi hwf henc
    rw [← hdecode, exec_decode] at h
    exact (Host.Outcome.next.inj h).symm
  cases i with
  | uartWr v pc => exact ⟨_, key rfl rfl⟩
  | uartRd pc => exact ⟨_, key rfl rfl⟩
  | conWr addr v pc =>
    by_cases htaken : writeTakenBy s.config addr = some .conWr
    · exact ⟨_, key (beq_of_eq htaken) rfl⟩
    · rw [exec_conWr_refused htaken] at h; cases h
  | ramWr addr v pc =>
    by_cases hfree : writeTakenBy s.config addr = none
    · exact ⟨_, key (beq_of_eq hfree) rfl⟩
    · rw [exec_ramWr_refused hfree] at h; cases h
  | ramRd addr pc =>
    by_cases hfree : readTakenBy s.config addr = none
    · exact ⟨_, key (beq_of_eq hfree) rfl⟩
    · rw [exec_ramRd_refused hfree] at h; cases h
  | _ => cases hi

theorem Effect.transact (s : State) (i : Instr) (tr : Transaction) : Effect s i (s.transact tr) :=
  .transactions i [tr] ⟨_, _, _, _, _, rfl⟩

/-- Assignments to registers of the host, with no transaction. -/
theorem Effect.registers (i : Instr) {s t : State} (h : s.SameButRegisters t) : Effect s i t :=
  .transactions i [] h

theorem State.setWatch_sameButRegisters (s : State) (a : Address) : s.SameButRegisters (s.setWatch a) := by
  cases h : s.config.haltLinked with
  | true => exact ⟨_, _, _, _, _, State.setWatch_of_linked h a⟩
  | false => exact ⟨_, _, _, _, _, State.setWatch_of_not_linked h a⟩

theorem effect_load {bytes : Option (List Byte)} {start : Nat} {s t : State}
    (h : exec (.load bytes start) s = .next t) : Effect s (.load bytes start) t := by
  obtain ⟨hhalted, -⟩ := State.whileHalted_eq_next h
  cases bytes with
  | none =>
    obtain rfl := Host.Outcome.next.inj ((exec_load_none hhalted start).symm.trans h)
    exact .registers _ ⟨_, _, _, _, _, rfl⟩
  | some bs =>
    rw [exec_load_some hhalted] at h
    split at h
    · cases h
    · cases h
      exact .transactions _ _ ⟨_, _, _, _, _, rfl⟩

theorem effect_setHalt {a : Option Nat} {s t : State} (h : exec (.setHalt a) s = .next t) :
    Effect s (.setHalt a) t := by
  obtain ⟨hhalted, -⟩ := State.whileHalted_eq_next h
  cases a with
  | none =>
    obtain rfl := Host.Outcome.next.inj ((exec_setHalt_none hhalted).symm.trans h)
    exact .registers _ ⟨_, _, _, _, _, rfl⟩
  | some a =>
    rcases le_or_gt a 0xFFFF with ha | ha
    · rw [exec_setHalt_of_le hhalted ha] at h
      cases h
      exact .registers _ ⟨_, _, _, _, _, rfl⟩
    · rw [exec_setHalt_of_lt hhalted ha] at h
      cases h

theorem effect_watch {a : Nat} {s t : State} (h : exec (.watch a) s = .next t) : Effect s (.watch a) t := by
  obtain ⟨hhalted, -⟩ := State.whileHalted_eq_next h
  rcases le_or_gt a 0xFFFF with ha | ha
  · rw [exec_watch_of_le hhalted ha] at h
    cases h
    exact .registers _ (s.setWatch_sameButRegisters _)
  · rw [exec_watch_of_lt hhalted ha] at h
    cases h

theorem effect_resetVectorLoad {s t : State} (h : exec .resetVectorLoad s = .next t) :
    Effect s .resetVectorLoad t := by
  obtain ⟨hhalted, -⟩ := State.whileHalted_eq_next h
  rw [exec_resetVectorLoad hhalted rfl rfl, ← State.transact_read, ← State.transact_read] at h
  cases h
  exact .transactions _ [_, _] ⟨_, _, _, _, _, rfl⟩

theorem exec_textInput_cases {text : List Nat} {s t : State} (h : exec (.textInput text) s = .next t) :
    t = s ∨ ∃ c, t = s.setPending c := by
  change execTextInput text s = .next t at h
  unfold execTextInput at h
  split at h
  · cases h; exact .inl rfl
  · cases h; exact .inr ⟨_, rfl⟩
  · cases h

theorem effect_textInput {text : List Nat} {s t : State} (h : exec (.textInput text) s = .next t) :
    Effect s (.textInput text) t := by
  obtain rfl | ⟨c, rfl⟩ := exec_textInput_cases h
  · exact .registers _ ⟨_, _, _, _, _, rfl⟩
  · exact .registers _ ⟨_, _, _, _, _, rfl⟩

/-- What an operation that completes has done. -/
theorem effect_of_exec {i : Instr} {s t : State} (h : exec i s = .next t) : Effect s i t := by
  have ofBus (hi : i.selectedByWord = true) : Effect s i t := by
    obtain ⟨tr, rfl⟩ := exec_selectedByWord hi h
    exact .transact s i tr
  cases i with
  | uartWr | uartRd | conWr | ramWr | ramRd => exact ofBus rfl
  | busRd addr pc =>
    rw [exec_busRd, ← State.transact_read] at h
    cases h; exact .transact s _ _
  | busWr addr v pc =>
    rw [exec_busWr, ← State.transact_write] at h
    cases h; exact .transact s _ _
  | load => exact effect_load h
  | setHalt => exact effect_setHalt h
  | watch => exact effect_watch h
  | resetVectorLoad => exact effect_resetVectorLoad h
  | textInput => exact effect_textInput h
  | inputPush => cases h; exact .registers _ ⟨_, _, _, _, _, rfl⟩
  | enterAt =>
    obtain ⟨hhalted, hk⟩ := State.whileHalted_eq_next h
    cases hk; exact .registers _ ⟨_, _, _, _, _, rfl⟩
  | run =>
    obtain ⟨hhalted, hk⟩ := State.whileHalted_eq_next h
    cases hk; exact .run hhalted
  | reset => rw [exec_reset] at h; cases h; exact .reset
  | present => cases h; exact .present _
  | putchar => cases h; exact .putchar _
  | scroll => cases h; exact .scroll
  | haltCheck => cases h; exact .haltCheck _
  | requestHalt => cases h; exact .requestHalt
  | step => cases h; exact .step
  | cancel => cases h; exact .cancel
  | terminate => cases h; exact .terminate

/-! ### The configuration, and the invariant (R20, R39) -/

theorem State.SameButRegisters.config {u t : State} (h : u.SameButRegisters t) : t.config = u.config := by
  obtain ⟨_, _, _, _, _, rfl⟩ := h
  rfl

/-- Settles O59: the configuration is unchanged by every effect. -/
theorem configurationNeverChanges : Obligations.ConfigurationNeverChanges := by
  intro i s t h
  cases effect_of_exec h with
  | transactions i ts hsame => rw [hsame.config, State.transactAll_config]
  | haltCheck | requestHalt | putchar | present => simp
  | step => simp [State.stepCpu]
  | scroll | reset | run | cancel | terminate => rfl

theorem State.Inv.sameButRegisters {u t : State} (hinv : u.Inv) (h : u.SameButRegisters t) : t.Inv := by
  obtain ⟨_, _, _, _, _, rfl⟩ := h
  exact hinv.congr rfl rfl rfl rfl rfl rfl

/-- Every operation that completes keeps the invariant. -/
theorem State.Inv.exec {i : Instr} {s t : State} (hinv : s.Inv) (h : exec i s = .next t) : t.Inv := by
  cases effect_of_exec h with
  | transactions i ts hsame => exact (hinv.transactAll ts).sameButRegisters hsame
  | haltCheck => exact hinv.settle _ _
  | requestHalt => exact hinv.requestHalt
  | putchar v => exact hinv.putChar v
  | scroll => exact hinv.scroll
  | present ok => exact hinv.present ok
  | reset => exact State.constructed_inv _ _ _ _
  | step => exact hinv.stepCpu
  | run | cancel | terminate => exact hinv.congr rfl rfl rfl rfl rfl rfl

/-! ### A step (R75, R197) -/

theorem step_of_terminated {s : State} (h : s.terminated = true) : step s = .next s := if_pos h

theorem step_of_turn_some {s s' : State} {i : Instr} (h : s.terminated = false) (hturn : s.turn = (some i, s')) :
    step s = exec i s' := by
  rw [step, if_neg (Bool.eq_false_iff.1 h), hturn]

theorem step_of_turn_none {s s' : State} (h : s.terminated = false) (hturn : s.turn = (none, s')) :
    step s = .next s' := by
  rw [step, if_neg (Bool.eq_false_iff.1 h), hturn]

/-- A turn takes a request out of the inbox and does no more than that. -/
theorem State.turn_snd (s : State) : s.turn.2 = { s with inbox := (takeRequest s.running s.inbox).2 } := by
  unfold State.turn
  dsimp only
  split <;> rfl

/-- Settles O58: the turn changes the inbox alone, and every operation keeps the invariant. -/
theorem everyStepKeepsTheInvariant : Obligations.EveryStepKeepsTheInvariant := by
  intro s t hinv h
  cases hterm : s.terminated with
  | true =>
    rw [step_of_terminated hterm] at h
    cases h; exact hinv
  | false =>
    obtain ⟨i, s', hturn⟩ : ∃ i s', s.turn = (i, s') := ⟨_, _, rfl⟩
    have hs' : s'.Inv := by
      have hsnd : s' = _ := (congrArg Prod.snd hturn).symm.trans s.turn_snd
      rw [hsnd]
      exact hinv.congr rfl rfl rfl rfl rfl rfl
    cases i with
    | none =>
      rw [step_of_turn_none hterm hturn] at h
      cases h; exact hs'
    | some i =>
      rw [step_of_turn_some hterm hturn] at h
      exact hs'.exec h

/-! ### The ways `running` changes (R32, R205) -/

theorem State.SameButRegisters.haltsOnce {u t : State} (h : u.SameButRegisters t) : u.HaltsOnce t := by
  obtain ⟨_, _, _, _, _, rfl⟩ := h
  exact .of_same rfl rfl

/-- An operation that completes reports once if it stops a run and starts none, but for RUN, which is performed in
HALTED, and for the three that stop it without a report. -/
theorem exec_running_cases {i : Instr} {s t : State} (h : exec i s = .next t) :
    s.HaltsOnce t ∨ (i = .run ∧ s.running = false) ∨
      ((i = .cancel ∨ i = .terminate ∨ i = .reset) ∧ t.running = false) := by
  cases effect_of_exec h with
  | transactions i ts hsame => exact .inl ((State.HaltsOnce.transactAll s ts).trans hsame.haltsOnce)
  | haltCheck => exact .inl (.settle s _ _)
  | requestHalt => exact .inl (.requestHalt s)
  | putchar v => exact .inl (.of_same (s.putChar_running v) (s.putChar_haltReports v))
  | scroll => exact .inl (.of_same rfl rfl)
  | present ok => exact .inl (.of_same (s.present_running ok) (s.present_haltReports ok))
  | step => exact .inl (.stepCpu s)
  | run hhalted => exact .inr (.inl ⟨rfl, hhalted⟩)
  | cancel => exact .inr (.inr ⟨.inl rfl, rfl⟩)
  | terminate => exact .inr (.inr ⟨.inr (.inl rfl), rfl⟩)
  | reset => exact .inr (.inr ⟨.inr (.inr rfl), rfl⟩)

/-- Settles O26: what stops a run without a report is one of the three, and RUN is not performed while RUNNING. -/
theorem runStopsOnlyByHaltOrCancel : Obligations.RunStopsOnlyByHaltOrCancel := by
  intro i s t h hrun hstop
  rcases exec_running_cases h with honce | ⟨-, hhalted⟩ | ⟨hi, -⟩
  · refine .inl ?_
    rw [honce.reports, if_pos ⟨hrun, hstop⟩]
  · rw [hrun] at hhalted; cases hhalted
  · exact .inr hi

/-- Settles O27: only RUN is neither one that starts no run nor one that ends in HALTED. -/
theorem onlyRunStartsRunning : Obligations.OnlyRunStartsRunning := by
  intro i s t h hhalted hrun
  rcases exec_running_cases h with honce | ⟨hi, -⟩ | ⟨-, hstop⟩
  · rw [honce.noStart hrun] at hhalted; cases hhalted
  · exact hi
  · rw [hrun] at hstop; cases hstop

/-! ### The dirty flag (R31) -/

/-- From `s` to `t` the dirty flag has been set, or neither it nor the grid has changed. -/
def State.MarksGrid (s t : State) : Prop := t.updated = true ∨ (t.updated = s.updated ∧ t.grid = s.grid)

theorem State.MarksGrid.trans {s t u : State} (h₁ : s.MarksGrid t) (h₂ : t.MarksGrid u) : s.MarksGrid u := by
  rcases h₂ with hset | ⟨hupdated, hgrid⟩
  · exact .inl hset
  · rwa [State.MarksGrid, hupdated, hgrid]

theorem State.MarksGrid.transact (s : State) (t : Transaction) : s.MarksGrid (s.transact t) := by
  unfold State.transact State.busWrite
  split
  · split
    · exact .inl (State.settle_updated _ _ _)
    · exact .inl rfl
    · exact .inr ⟨rfl, rfl⟩
  · exact .inr ⟨s.busRead_updated _ _, s.busRead_grid _ _⟩

theorem State.MarksGrid.transactAll (s : State) (ts : List Transaction) : s.MarksGrid (s.transactAll ts) :=
  List.foldlRecOn ts State.transact (.inr ⟨rfl, rfl⟩) fun u hu t _ => hu.trans (.transact u t)

theorem State.MarksGrid.stepCpu (s : State) : s.MarksGrid s.stepCpu := by
  obtain ⟨ts, next, hperform⟩ := State.exists_perform_eq s.nextRun s.dropScript
  have hcheck : State.MarksGrid ((s.dropScript.transactAll ts).withCpu next) s.stepCpu := by
    rw [State.stepCpu, hperform]
    exact .inr ⟨State.watchCheck_updated _, State.watchCheck_grid _⟩
  exact (State.MarksGrid.transactAll s.dropScript ts).trans hcheck

theorem State.SameButRegisters.marksGrid {u t : State} (h : u.SameButRegisters t) : u.MarksGrid t := by
  obtain ⟨_, _, _, _, _, rfl⟩ := h
  exact .inr ⟨rfl, rfl⟩

/-- An operation that completes marks what it changes of the grid, but for SCROLL, PRESENT(true) and RESET. -/
theorem exec_dirty_cases {i : Instr} {s t : State} (h : exec i s = .next t) :
    s.MarksGrid t ∨ (i = .scroll ∧ t.updated = s.updated) ∨ (i = .present true ∧ t.grid = s.grid) ∨ i = .reset := by
  cases effect_of_exec h with
  | transactions i ts hsame => exact .inl ((State.MarksGrid.transactAll s ts).trans hsame.marksGrid)
  | haltCheck => exact .inl (.inr ⟨s.settle_updated _ _, s.settle_grid _ _⟩)
  | requestHalt => exact .inl (.inr ⟨s.requestHalt_updated, s.requestHalt_grid⟩)
  | putchar v => exact .inl (.inl (s.putChar_updated v))
  | step => exact .inl (.stepCpu s)
  | run | cancel | terminate => exact .inl (.inr ⟨rfl, rfl⟩)
  | scroll => exact .inr (.inl ⟨rfl, rfl⟩)
  | present ok =>
    cases ok with
    | true => exact .inr (.inr (.inl ⟨rfl, s.present_grid true⟩))
    | false => rw [State.present_failed]; exact .inl (.inr ⟨rfl, rfl⟩)
  | reset => exact .inr (.inr (.inr rfl))

/-- Settles O33: SCROLL leaves the flag, and what marks the grid does not clear it. -/
theorem onlyPresentClearsTheDirtyFlag : Obligations.OnlyPresentClearsTheDirtyFlag := by
  intro i s t h hset hclear
  rcases exec_dirty_cases h with (hmark | ⟨hsame, -⟩) | ⟨-, hsame⟩ | ⟨hpresent, -⟩ | hreset
  · rw [hmark] at hclear; cases hclear
  · rw [hsame, hset] at hclear; cases hclear
  · rw [hsame, hset] at hclear; cases hclear
  · exact .inl hpresent
  · exact .inr hreset

/-- Settles O34: of the operations that do not mark the grid, PRESENT leaves it, and the other two are excepted. -/
theorem gridChangesAreMarkedDirty : Obligations.GridChangesAreMarkedDirty := by
  intro i s t h hscroll hreset hchange
  rcases exec_dirty_cases h with (hmark | ⟨-, hsame⟩) | ⟨hi, -⟩ | ⟨-, hsame⟩ | hi
  · exact hmark
  · exact absurd hsame hchange
  · exact absurd hi hscroll
  · exact absurd hsame hchange
  · exact absurd hi hreset

end Sys2Proof.Machine
end

section
/-!
PROOFS. Whose turn it is (43_host_monitor.md R193, R197, R199, R200, R205, R206): what a step performs, in HALTED and
while RUNNING, and the ways a step ends a run.
-/

namespace Sys2Proof.Machine

/-- A request at the head that may be taken now, and that asks for an operation (R92, R103). -/
theorem State.turn_of_request {s : State} {r : Request} {rest : List Request} {i : Instr} (hinbox : s.inbox = r :: rest)
    (hwaits : s.running = true → waitsForHalt r = false) (hi : decodeRequest s.config r = some i) :
    s.turn = (some i, { s with inbox := rest }) := by
  rw [State.turn, hinbox, takeRequest_cons s.running r rest hwaits, Option.bind_some, hi]

/-- Where nothing is taken, or `pass`, it is STEP's turn while RUNNING, and nobody's in HALTED (R193, R234). -/
theorem State.turn_of_no_request {s : State} {r : Option Request} {rest : List Request}
    {i : Option Instr} (htaken : takeRequest s.running s.inbox = (r, rest))
    (hr : r.bind (decodeRequest s.config) = none) (hi : (if s.running then some .step else none) = i) :
    s.turn = (i, { s with inbox := rest }) := by
  rw [State.turn, htaken, hr, ← hi]

/-- Settles O54: the request at the head is this turn's operation. -/
theorem stepRunsTheRequestedOperation : Obligations.StepRunsTheRequestedOperation :=
  fun _ _ _ _ hterm hinbox hi hwaits => step_of_turn_some hterm (State.turn_of_request hinbox hwaits hi)

/-- While RUNNING, with requests that all wait, the step is STEP. -/
theorem step_of_running_waiting {s : State} (hterm : s.terminated = false) (hrun : s.running = true)
    (h : ∀ r ∈ s.inbox, waitsForHalt r = true) : step s = exec .step s := by
  have htaken : takeRequest s.running s.inbox = (none, s.inbox) := by
    rw [hrun]; exact takeWhileRunning_waiting s.inbox h
  exact step_of_turn_some hterm (State.turn_of_no_request htaken rfl (if_pos hrun))

/-- Settles O55: waiting requests are not taken, and `pass` asks for no operation. -/
theorem runningMachineStepsTheCpu : Obligations.RunningMachineStepsTheCpu := by
  refine ⟨fun s => step_of_running_waiting, fun s rest hterm hrun hinbox => ?_⟩
  have htaken : takeRequest s.running s.inbox = (some .pass, rest) := by
    rw [hinbox]; exact takeRequest_cons s.running .pass rest fun _ => rfl
  exact step_of_turn_some hterm (State.turn_of_no_request htaken rfl (if_pos hrun))

/-- Settles O56: in HALTED with an empty inbox it is nobody's turn, and a terminated machine takes no turn. -/
theorem haltedMachineWaits : Obligations.HaltedMachineWaits := by
  refine ⟨fun s hhalted hinbox => ?_, fun s => step_of_terminated⟩
  cases hterm : s.terminated with
  | true => exact step_of_terminated hterm
  | false =>
    have htaken : takeRequest s.running s.inbox = (none, s.inbox) := by rw [hhalted, hinbox]; rfl
    exact step_of_turn_none hterm (State.turn_of_no_request htaken rfl (if_neg (Bool.eq_false_iff.1 hhalted)))

theorem execAll_singleton (i : Instr) (s : State) : execAll [i] s = exec i s := by
  rw [execAll]
  cases exec i s <;> rfl

/-- Settles O53: at the bus port the transaction is the request, and while RUNNING it is the scripted instruction. -/
theorem stepRunsTheDecodedTransaction : Obligations.StepRunsTheDecodedTransaction := by
  refine fun s t rest hterm => ⟨fun hhalted hinbox => ?_, fun pc' hrun hinbox hscript => ?_⟩
  · have hwaits : s.running = true → waitsForHalt (.bus t) = false := fun hrun => by
      rw [hhalted] at hrun; cases hrun
    exact step_of_turn_some hterm (State.turn_of_request hinbox hwaits rfl)
  · obtain ⟨u, hu, hstep⟩ := stepOfAScriptedCpu s ⟨[t], pc'⟩ [] hscript
    refine ⟨u, ?_, ?_⟩
    · rwa [List.map_singleton, execAll_singleton] at hu
    · rw [step_of_running_waiting hterm hrun (by simp [hinbox]), hstep]

/-! ### The ways a step ends a run (R205, R206) -/

/-- While RUNNING no request is taken that waits for HALTED. -/
theorem waitsForHalt_of_takeWhileRunning {q : List Request} {r : Request} (h : (takeWhileRunning q).1 = some r) :
    waitsForHalt r = false := by
  induction q with
  | nil => cases h
  | cons r' q ih =>
    rw [takeWhileRunning] at h
    split at h
    case isTrue => exact ih h
    case isFalse hwaits => cases h; exact Bool.eq_false_iff.2 hwaits

/-- The operation of a turn while RUNNING: STEP, or what a request that need not wait asks for. -/
theorem State.turn_of_running {s : State} (hrun : s.running = true) :
    s.turn.1 = some .step ∨
      ∃ r i, waitsForHalt r = false ∧ decodeRequest s.config r = some i ∧ s.turn.1 = some i := by
  obtain ⟨r, rest, htaken⟩ : ∃ r rest, takeRequest s.running s.inbox = (r, rest) := ⟨_, _, rfl⟩
  cases hop : r.bind (decodeRequest s.config) with
  | none => exact .inl (congrArg Prod.fst (State.turn_of_no_request htaken hop (if_pos hrun)))
  | some i =>
    obtain ⟨r, rfl, hi⟩ := Option.bind_eq_some_iff.1 hop
    have hturn : s.turn.1 = some i := by rw [State.turn, htaken, hop]
    have htake : (takeWhileRunning s.inbox).1 = some r := by
      rw [takeRequest, if_pos hrun] at htaken
      rw [htaken]
    exact .inr ⟨r, i, waitsForHalt_of_takeWhileRunning htake, hi, hturn⟩

/-- A request that need not wait does not end a run, CANCEL and TERMINATE apart. -/
theorem exec_request_running {s u t : State} {r : Request} {i : Instr} (hwaits : waitsForHalt r = false)
    (hi : decodeRequest s.config r = some i) (h : exec i u = .next t) :
    t.running = u.running ∨ i = .cancel ∨ i = .terminate := by
  cases r with
  | inputPush c => cases hi; cases h; exact .inl rfl
  | present ok => cases hi; cases h; exact .inl (u.present_running ok)
  | textInput text =>
    cases hi
    obtain rfl | ⟨c, rfl⟩ := exec_textInput_cases h
    · exact .inl rfl
    · exact .inl rfl
  | cancel => cases hi; exact .inr (.inl rfl)
  | terminate => cases hi; exact .inr (.inr rfl)
  | pass => cases hi
  | bus | command | setHalt | resetVectorLoad | enterAt => cases hwaits

theorem step_of_turn_fst {s : State} {i : Instr} (h : s.terminated = false) (hturn : s.turn.1 = some i) :
    step s = exec i s.turn.2 := step_of_turn_some h (Prod.ext hturn rfl)

/-- Settles O60: the turn is STEP's, which stops a run in its two ways, or a request's, of which two stop a run. -/
theorem aRunEndsInThreeWays : Obligations.ARunEndsInThreeWays := by
  intro s t h hrun hstop
  have hterm : s.terminated = false := by
    refine Bool.eq_false_iff.2 fun hterm => ?_
    rw [step_of_terminated hterm] at h
    cases h
    rw [hrun] at hstop; cases hstop
  have hsnd := s.turn_snd
  have hrun' : s.turn.2.running = true := by rw [hsnd]; exact hrun
  rcases State.turn_of_running hrun with hturn | ⟨r, i, hwaits, hi, hturn⟩
  · have hexec : step s = exec .step s.turn.2 := step_of_turn_fst hterm hturn
    obtain rfl : s.turn.2.stepCpu = t := Host.Outcome.next.inj (hexec.symm.trans h)
    have hreports := (State.HaltsOnce.stepCpu s.turn.2).reports
    rw [if_pos ⟨hrun', hstop⟩] at hreports
    have hways := State.stepCpu_stops hrun' hstop
    rw [hsnd] at hreports hways ⊢
    exact .inl ⟨by rw [hexec, hsnd], hreports, hways⟩
  · rw [step_of_turn_fst hterm hturn] at h
    rcases exec_request_running hwaits hi h with hsame | rfl | rfl
    · rw [hstop, hrun'] at hsame; cases hsame
    · exact .inr (.inl hturn)
    · exact .inr (.inr hturn)

end Sys2Proof.Machine
end

section
/-!
PROOFS. The console's streaming path (42_console.md R162 to R166): PUTCHAR by its cursor and its grid, and a row of
glyphs.
-/

namespace Sys2Proof.Machine

/-! ### PUTCHAR (R162, R164) -/

/-- PUTCHAR of this byte ends the cursor's row: a newline, or a glyph in the last column. -/
def State.RowEnds (s : State) (v : Byte) : Prop := v = newlineByte s.config ∨ s.cursorX + 1 = s.config.width

/-- The grid with PUTCHAR's glyph in it, before any scroll; a newline writes no cell. -/
def State.printed (s : State) (v : Byte) : Grid :=
  if v = newlineByte s.config then s.grid else Grid.put s.grid s.cursorX s.cursorY (Cell.ofGlyph v)

theorem State.printed_of_newline {s : State} {v : Byte} (h : v = newlineByte s.config) : s.printed v = s.grid :=
  if_pos h

theorem State.printed_of_glyph {s : State} {v : Byte} (h : v ≠ newlineByte s.config) :
    s.printed v = Grid.put s.grid s.cursorX s.cursorY (Cell.ofGlyph v) := if_neg h

/-- The five outcomes of R164 as two: where the row goes on, and where it ends, above the last row or on it. -/
theorem State.putChar_row_cases {s : State} (h : s.ConsoleOk) (v : Byte) :
    (¬ s.RowEnds v ∧ (s.putChar v).grid = s.printed v ∧
      (s.putChar v).cursorX = s.cursorX + 1 ∧ (s.putChar v).cursorY = s.cursorY) ∨
    (s.RowEnds v ∧ s.cursorY + 1 < s.config.height ∧ (s.putChar v).grid = s.printed v ∧
      (s.putChar v).cursorX = 0 ∧ (s.putChar v).cursorY = s.cursorY + 1) ∨
    (s.RowEnds v ∧ s.cursorY + 1 = s.config.height ∧
      (s.putChar v).grid = Grid.scrolled s.config.width (s.printed v) ∧
      (s.putChar v).cursorX = 0 ∧ (s.putChar v).cursorY = s.cursorY) := by
  rcases State.putChar_cases h v with ⟨hv, hy, hcells⟩ | ⟨hv, hy, hcells⟩ | ⟨hv, hx, hcells⟩ | ⟨hv, hx, hy, hcells⟩ |
    ⟨hv, hx, hy, hcells⟩
  · rw [State.printed_of_newline hv]
    exact .inr (.inl ⟨.inl hv, hy, hcells⟩)
  · rw [State.printed_of_newline hv]
    exact .inr (.inr ⟨.inl hv, hy, hcells⟩)
  · rw [State.printed_of_glyph hv]
    exact .inl ⟨not_or.2 ⟨hv, hx.ne⟩, hcells⟩
  · rw [State.printed_of_glyph hv]
    exact .inr (.inl ⟨.inr hx, hy, hcells⟩)
  · rw [State.printed_of_glyph hv]
    exact .inr (.inr ⟨.inr hx, hy, hcells⟩)

theorem State.printed_ok {s : State} (h : s.ConsoleOk) (v : Byte) : Grid.Ok s.config (s.printed v) := by
  unfold State.printed
  split
  · exact h.grid
  · exact Grid.put_ok _ _ v h.grid

/-- A glyph is in its cell, white on black, and every other cell is as before (R162 with D5). -/
theorem State.cell?_printed {s : State} (h : s.ConsoleOk) (v : Byte) (x y : Nat) :
    Grid.cell? (s.printed v) x y =
      if ¬ v = newlineByte s.config ∧ x = s.cursorX ∧ y = s.cursorY then some ⟨v, .white, .black⟩
      else Grid.cell? s.grid x y := by
  by_cases hv : v = newlineByte s.config
  · rw [State.printed_of_newline hv, if_neg fun hglyph => hglyph.1 hv]
  · rw [State.printed_of_glyph hv, Grid.cell?_put h.grid h.cursorX h.cursorY]
    simp only [hv, not_false_eq_true, true_and]
    rfl

/-- Settles O29, outcome by outcome: the row goes on, it ends above the last row, it ends on the last row. -/
theorem putCharFiveOutcomes : Obligations.PutCharFiveOutcomes := by
  intro s v hinv newline rowEnds lastRow wrote
  have hconsole := hinv.console
  have hcell : ∀ x y, Grid.cell? (s.printed v) x y = wrote x y := State.cell?_printed hconsole v
  refine ⟨s.putChar v, exec_putchar s v, ?_⟩
  rcases State.putChar_row_cases hconsole v with ⟨hends, hgrid, hx, hy⟩ | ⟨hends, hlast, hgrid, hx, hy⟩ |
    ⟨hends, hlast, hgrid, hx, hy⟩
  · refine ⟨fun h => absurd h hends, fun _ => hx, fun h => absurd h.1 hends, fun _ => hy, fun _ => ?_,
      fun h => absurd h.1 hends, s.putChar_frame v⟩
    rwa [hgrid]
  · have hnot : ¬ lastRow := hlast.ne
    refine ⟨fun _ => hx, fun h => absurd hends h, fun _ => hy, fun h => absurd h (not_or.2 ⟨not_not_intro hends, hnot⟩),
      fun _ => ?_, fun h => absurd h.2 hnot, s.putChar_frame v⟩
    rwa [hgrid]
  · refine ⟨fun _ => hx, fun h => absurd hends h, fun h => absurd hlast h.2, fun _ => hy,
      fun h => absurd ⟨hends, hlast⟩ h, fun _ x y hwidth => ?_, s.putChar_frame v⟩
    have hrow : y = s.config.height - 1 ↔ y + 1 = s.config.height := by omega
    rw [hgrid, Grid.cell?_scrolled (State.printed_ok hconsole v) (by omega) x y hwidth, ← hcell]
    simp only [hrow]
    rfl

/-! ### A row of glyphs (R166) -/

/-- A glyph moves the cursor one cell on, in the order of the cells, but not below the last row. -/
theorem State.putChar_cursor_of_glyph {s : State} (h : s.ConsoleOk) {v : Byte} (hv : v ≠ newlineByte s.config) :
    (s.putChar v).cursorX = (s.cursorX + 1) % s.config.width ∧
      (s.putChar v).cursorY = min (s.config.height - 1) (s.cursorY + (s.cursorX + 1) / s.config.width) := by
  have hwidth := h.width
  have hcolumn := h.cursorX
  have hrow := h.cursorY
  have hends : s.RowEnds v ↔ s.cursorX + 1 = s.config.width := or_iff_right hv
  rcases State.putChar_row_cases h v with ⟨hgoes, -, hx, hy⟩ | ⟨hstops, hlast, -, hx, hy⟩ |
    ⟨hstops, hlast, -, hx, hy⟩
  · have hlt : s.cursorX + 1 < s.config.width := by
      rw [hends] at hgoes
      omega
    rw [hx, hy, Nat.mod_eq_of_lt hlt, Nat.div_eq_of_lt hlt]
    omega
  · rw [hx, hy, hends.1 hstops, Nat.mod_self, Nat.div_self hwidth]
    omega
  · rw [hx, hy, hends.1 hstops, Nat.mod_self, Nat.div_self hwidth]
    omega

/-- Glyphs move the cursor as many cells on, in the order of the cells, but not below the last row. -/
theorem State.foldl_putChar_cursor {s : State} (h : s.ConsoleOk) {vs : List Byte}
    (hvs : ∀ v ∈ vs, v ≠ newlineByte s.config) :
    (vs.foldl State.putChar s).cursorX = (s.cursorX + vs.length) % s.config.width ∧
      (vs.foldl State.putChar s).cursorY =
        min (s.config.height - 1) (s.cursorY + (s.cursorX + vs.length) / s.config.width) := by
  induction vs generalizing s with
  | nil =>
    have hrow := h.cursorY
    rw [List.foldl_nil, List.length_nil, Nat.add_zero, Nat.mod_eq_of_lt h.cursorX, Nat.div_eq_of_lt h.cursorX]
    omega
  | cons v vs ih =>
    obtain ⟨hv, hrest⟩ := List.forall_mem_cons.1 hvs
    obtain ⟨hx, hy⟩ := State.putChar_cursor_of_glyph h hv
    obtain ⟨ihx, ihy⟩ := ih (State.putChar_ok h v) (by rwa [State.putChar_config])
    rw [State.putChar_config, hx] at ihx ihy
    rw [hy] at ihy
    have hcells : s.cursorX + (v :: vs).length = s.cursorX + 1 + vs.length := by rw [List.length_cons]; omega
    have hdiv : (s.cursorX + 1) / s.config.width + ((s.cursorX + 1) % s.config.width + vs.length) / s.config.width =
        (s.cursorX + 1 + vs.length) / s.config.width := by
      rw [← Nat.mul_add_div h.width, ← Nat.add_assoc, Nat.div_add_mod]
    have hclamp (p q : Nat) :
        min (s.config.height - 1) (min (s.config.height - 1) p + q) = min (s.config.height - 1) (p + q) := by omega
    rw [List.foldl_cons, hcells]
    refine ⟨?_, ?_⟩
    · rw [ihx, Nat.mod_add_mod]
    · rw [ihy, hclamp, Nat.add_assoc, hdiv]

theorem execAll_putchar (vs : List Byte) (s : State) :
    execAll (vs.map .putchar) s = .next (vs.foldl State.putChar s) := by
  induction vs generalizing s with
  | nil => rfl
  | cons v vs ih => rw [List.map_cons, execAll_cons_of_next (exec_putchar s v), ih, List.foldl_cons]

/-- Settles O31: as many cells on as a row has is one row on. -/
theorem fullRowOfGlyphsAdvancesOneRow : Obligations.FullRowOfGlyphsAdvancesOneRow := by
  intro s vs hinv hlength hglyphs
  have hconsole := hinv.console
  have hrow := hinv.cursorY
  obtain ⟨hx, hy⟩ := State.foldl_putChar_cursor hconsole hglyphs
  rw [hlength] at hx hy
  refine ⟨vs.foldl State.putChar s, execAll_putchar vs s, ?_, ?_⟩
  · rw [hx, Nat.add_mod_right, Nat.mod_eq_of_lt hinv.cursorX]
  · rw [hy, Nat.add_div_right _ hconsole.width, Nat.div_eq_of_lt hinv.cursorX]
    split_ifs with hbelow
    · omega
    · omega

end Sys2Proof.Machine
end

section
/-!
PROOFS. LOAD (43_host_monitor.md R190, 90_conflicts.md C14): its writes in order, the bytes it leaves in RAM, and that
a state which holds what it writes is left as it is.
-/

namespace Sys2Proof.Machine

/-! ### The writes of a LOAD (R105, R190) -/

theorem execAll_mapIdx_busWr (pc : Address) (bs : List Byte) (start : Nat) (s : State) :
    execAll (bs.mapIdx fun i b => .busWr (BitVec.ofNat 16 (start + i)) b pc) s =
      .next (s.transactAll (loadWrites pc start bs)) := by
  induction bs generalizing start s with
  | nil => rfl
  | cons b bs ih =>
    have hrest := ih (start + 1) (s.busWrite (BitVec.ofNat 16 start) b pc)
    simp only [Nat.add_assoc, Nat.add_comm 1] at hrest
    rw [List.mapIdx_cons, execAll_cons_of_next (exec_busWr s _ b pc), loadWrites, State.transactAll_cons,
      State.transact_write]
    exact hrest

/-- Settles O35, by the LOAD's list of writes. -/
theorem loadWritesThroughTheBus : Obligations.LoadWritesThroughTheBus :=
  fun s bs start h hrange => ⟨_, exec_load_of_le h hrange, execAll_mapIdx_busWr s.cpu.pc bs start s⟩

theorem loadAddress_toNat {a : Nat} (h : a < 0x10000) : (BitVec.ofNat 16 a : Address).toNat = a := by
  rw [BitVec.toNat_ofNat, Nat.mod_eq_of_lt h]

/-- The writes of a LOAD lie in its range. -/
theorem loadWrites_range {pc : Address} {start : Nat} {bs : List Byte} (hrange : start + bs.length ≤ 0x10000)
    {t : Transaction} (ht : t ∈ loadWrites pc start bs) :
    t.isWrite = true ∧ start ≤ t.addr.toNat ∧ t.addr.toNat < start + bs.length := by
  induction bs generalizing start with
  | nil => cases ht
  | cons b bs ih =>
    rw [List.length_cons] at hrange ⊢
    rcases List.mem_cons.1 ht with rfl | ht
    · rw [Transaction.write_addr, loadAddress_toNat (by omega)]
      exact ⟨Transaction.write_isWrite .., by omega⟩
    · obtain ⟨hw, hlo, hhi⟩ := ih (by omega) ht
      exact ⟨hw, by omega⟩

/-- The writes of a LOAD go to addresses of their own. -/
theorem loadWrites_pairwise {pc : Address} {start : Nat} {bs : List Byte} (hrange : start + bs.length ≤ 0x10000) :
    (loadWrites pc start bs).Pairwise fun t t' => t.addr ≠ t'.addr := by
  induction bs generalizing start with
  | nil => exact .nil
  | cons b bs ih =>
    rw [List.length_cons] at hrange
    refine .cons (fun t ht heq => ?_) (ih (by omega))
    obtain ⟨-, hlo, -⟩ := loadWrites_range (by omega) ht
    rw [← heq, Transaction.write_addr, loadAddress_toNat (by omega)] at hlo
    omega

/-! ### A LOAD into RAM (R67) -/

theorem notTaken_tail {c : Config} {start n : Nat}
    (h : ∀ i, i < n + 1 → writeTakenBy c (BitVec.ofNat 16 (start + i)) = none) :
    ∀ i, i < n → writeTakenBy c (BitVec.ofNat 16 (start + 1 + i)) = none := by
  intro i hi
  rw [Nat.add_assoc, Nat.add_comm 1]
  exact h (i + 1) (Nat.succ_lt_succ hi)

/-- A LOAD that no handler takes begins by storing its first byte. -/
theorem State.transactAll_loadWrites_cons {s : State} (pc : Address) {b : Byte} {bs : List Byte} {start : Nat}
    (hfree : ∀ i, i < bs.length + 1 → writeTakenBy s.config (BitVec.ofNat 16 (start + i)) = none) :
    s.transactAll (loadWrites pc start (b :: bs)) =
      (s.ramWrite (BitVec.ofNat 16 start) b).transactAll (loadWrites pc (start + 1) bs) := by
  have hhead : writeTakenBy s.config (BitVec.ofNat 16 start) = none := hfree 0 (Nat.succ_pos _)
  rw [loadWrites, State.transactAll_cons, State.transact_write, State.busWrite_of_not_taken hhead]

/-- A LOAD that no handler takes changes RAM and the result, and nothing else. -/
theorem State.transactAll_loadWrites_frame {s : State} (pc : Address) {bs : List Byte} {start : Nat}
    (hfree : ∀ i, i < bs.length → writeTakenBy s.config (BitVec.ofNat 16 (start + i)) = none) :
    ∃ ram returned, s.transactAll (loadWrites pc start bs) = { s with ram := ram, returned := returned } := by
  induction bs generalizing s start with
  | nil => exact ⟨s.ram, s.returned, rfl⟩
  | cons b bs ih =>
    rw [State.transactAll_loadWrites_cons pc hfree]
    exact ih (s := s.ramWrite (BitVec.ofNat 16 start) b) (notTaken_tail hfree)

/-- A LOAD that no handler takes leaves its bytes in RAM. -/
theorem State.transactAll_loadWrites_ramByte {s : State} (pc : Address) {bs : List Byte} {start : Nat}
    (hrange : start + bs.length ≤ 0x10000)
    (hfree : ∀ i, i < bs.length → writeTakenBy s.config (BitVec.ofNat 16 (start + i)) = none)
    (i : Nat) (hi : i < bs.length) : (s.transactAll (loadWrites pc start bs)).ramByte (start + i) = bs[i] := by
  induction bs generalizing s start i with
  | nil => cases hi
  | cons b bs ih =>
    rw [List.length_cons] at hrange
    rw [State.transactAll_loadWrites_cons pc hfree]
    cases i with
    | zero =>
      have hlater (t : Transaction) (ht : t ∈ loadWrites pc (start + 1) bs) (_ : t.isWrite = true) :
          start + 0 ≠ t.addr.toNat := by
        obtain ⟨-, hlo, -⟩ := loadWrites_range (by omega) ht
        omega
      rw [State.transactAll_ramByte _ hlater, State.ramWrite_ramByte, loadAddress_toNat (by omega)]
      exact if_pos rfl
    | succ i =>
      have hrest := ih (s := s.ramWrite (BitVec.ofNat 16 start) b) (by omega) (notTaken_tail hfree) i
        (Nat.lt_of_succ_lt_succ hi)
      rwa [Nat.add_assoc, Nat.add_comm 1] at hrest

/-- Settles O37: the bytes are there, no write goes outside the range, and none reaches a device. -/
theorem loadedBytesAreInRam : Obligations.LoadedBytesAreInRam := by
  intro s bs start h hrange hfree
  refine ⟨_, exec_load_of_le h hrange, State.transactAll_loadWrites_ramByte _ hrange hfree, fun a ha => ?_, ?_⟩
  · refine State.transactAll_ramByte s fun t ht _ => ?_
    obtain ⟨-, hlo, hhi⟩ := loadWrites_range hrange ht
    omega
  · obtain ⟨ram, returned, hframe⟩ := State.transactAll_loadWrites_frame s.cpu.pc hfree
    rw [hframe]

/-! ### A LOAD that is there already (C14) -/

/-- The state holds what a write of `v` at `addr` would put there: the byte in RAM, or the glyph in the console's
grid. No state holds a write to the UART, which emits each time. -/
def State.Holds (s : State) (addr : Address) (v : Byte) : Prop :=
  match writeTakenBy s.config addr with
  | some .uartWr => False
  | some .conWr =>
    Grid.cell? s.grid (cellColumn s.config addr) (cellRow s.config addr) = some (Cell.ofGlyph v) ∧ s.updated = true
  | none => s.ramByte addr.toNat = v

theorem State.holds_iff_of_conWr {s : State} {addr : Address} (h : writeTakenBy s.config addr = some .conWr)
    (v : Byte) : s.Holds addr v ↔
      Grid.cell? s.grid (cellColumn s.config addr) (cellRow s.config addr) = some (Cell.ofGlyph v) ∧
        s.updated = true := by
  rw [State.Holds, h]

theorem State.holds_iff_of_not_taken {s : State} {addr : Address} (h : writeTakenBy s.config addr = none)
    (v : Byte) : s.Holds addr v ↔ s.ramByte addr.toNat = v := by
  rw [State.Holds, h]

/-- A write is the console's or RAM's where it is not the UART's. -/
theorem writeTakenBy_cases {c : Config} {addr : Address} (h : writeTakenBy c addr ≠ some .uartWr) :
    writeTakenBy c addr = some .conWr ∨ writeTakenBy c addr = none := by
  cases hk : writeTakenBy c addr with
  | none => exact .inr rfl
  | some k =>
    cases k with
    | conWr => exact .inl rfl
    | uartWr => exact absurd hk h

theorem State.Holds.not_uartWr {s : State} {addr : Address} {v : Byte} (h : s.Holds addr v) :
    writeTakenBy s.config addr ≠ some .uartWr := by
  intro huart
  rw [State.Holds, huart] at h
  exact h

/-- A console write puts its glyph into its cell and leaves the others. -/
theorem State.Inv.cell?_conWrite {s : State} (hinv : s.Inv) {addr : Address}
    (htaken : writeTakenBy s.config addr = some .conWr) (v : Byte) (x y : Nat) :
    Grid.cell? (s.conWrite addr v).grid x y =
      if x = cellColumn s.config addr ∧ y = cellRow s.config addr then some (Cell.ofGlyph v)
      else Grid.cell? s.grid x y := by
  obtain ⟨hcolumn, hrow⟩ := cell_in_grid s.config_wellFormed htaken
  rw [State.conWrite_grid, Grid.cell?_put hinv.console.grid hcolumn hrow]

theorem State.Inv.holds_busWrite {s : State} (hinv : s.Inv) {addr : Address}
    (hnot : writeTakenBy s.config addr ≠ some .uartWr) (v : Byte) (pc : Address) :
    (s.busWrite addr v pc).Holds addr v := by
  rcases writeTakenBy_cases hnot with htaken | hfree
  · rw [State.holds_iff_of_conWr (by rwa [State.busWrite_config]), State.busWrite_config,
      State.busWrite_of_conWr htaken, hinv.cell?_conWrite htaken, if_pos ⟨rfl, rfl⟩]
    exact ⟨rfl, rfl⟩
  · rw [State.holds_iff_of_not_taken (by rwa [State.busWrite_config]), State.busWrite_of_not_taken hfree,
      State.ramWrite_ramByte, if_pos rfl]

/-- A write at another address leaves what the state holds. -/
theorem State.Holds.busWrite {s : State} (hinv : s.Inv) {addr addr' : Address} {v : Byte} (h : s.Holds addr v)
    (hne : addr ≠ addr') (hnot : writeTakenBy s.config addr' ≠ some .uartWr) (w : Byte) (pc : Address) :
    (s.busWrite addr' w pc).Holds addr v := by
  rcases writeTakenBy_cases h.not_uartWr with htaken | hfree
  · rw [State.holds_iff_of_conWr htaken] at h
    rw [State.holds_iff_of_conWr (by rwa [State.busWrite_config]), State.busWrite_config]
    rcases writeTakenBy_cases hnot with htaken' | hfree'
    · have hcell : ¬ (cellColumn s.config addr = cellColumn s.config addr' ∧
          cellRow s.config addr = cellRow s.config addr') := fun ⟨hcolumn, hrow⟩ => hne <| by
        rw [← cellAddress_cell s.config_wellFormed htaken, hcolumn, hrow, cellAddress_cell s.config_wellFormed htaken']
      rw [State.busWrite_of_conWr htaken', hinv.cell?_conWrite htaken', if_neg hcell]
      exact ⟨h.1, rfl⟩
    · rw [State.busWrite_of_not_taken hfree', State.ramWrite_grid, State.ramWrite_updated]
      exact h
  · rw [State.holds_iff_of_not_taken hfree] at h
    have hbyte : addr.toNat ≠ addr'.toNat := fun heq => hne (BitVec.eq_of_toNat_eq heq)
    rw [State.holds_iff_of_not_taken (by rwa [State.busWrite_config]), s.busWrite_ramByte_of_ne addr' w pc hbyte, h]

/-- Putting into a cell what it holds leaves the grid. -/
theorem Grid.put_of_cell? {g : Grid} {x y : Nat} {cell : Cell} (h : Grid.cell? g x y = some cell) :
    Grid.put g x y cell = g := by
  obtain ⟨row, hrow, hcell⟩ := Option.bind_eq_some_iff.1 h
  obtain ⟨hx, rfl⟩ := List.getElem?_eq_some_iff.1 hcell
  refine List.ext_getElem? fun i => ?_
  rw [Grid.put, List.getElem?_modify]
  by_cases hi : y = i
  · subst hi
    simp [hrow]
  · simp [hi]

/-- Storing the byte that is there leaves the canonical byte store. -/
theorem Memory.write_of_read {init : List Byte} {m : List Host.Cell} {a : Nat} (hwf : Memory.wf init m)
    (ha : a ≤ lastAddress) : Memory.write init m a (Memory.read init m a) = m := by
  refine Memory.ext init (Memory.wf_write init m a _ ha hwf) hwf fun k => ?_
  rw [Memory.read_write]
  split_ifs with hk
  · rw [hk]
  · rfl

/-- A write of what the state holds changes nothing, if its result is there too. -/
theorem State.Inv.busWrite_of_holds {s : State} (hinv : s.Inv) {addr : Address} {v : Byte} (h : s.Holds addr v)
    (hreturned : s.returned = some ⟨none, false⟩) (pc : Address) : s.busWrite addr v pc = s := by
  rcases writeTakenBy_cases h.not_uartWr with htaken | hfree
  · obtain ⟨hcell, hupdated⟩ := (State.holds_iff_of_conWr htaken v).1 h
    rw [State.busWrite_of_conWr htaken, State.conWrite_frame, State.conWrite_grid, Grid.put_of_cell? hcell,
      ← hreturned, ← hupdated]
  · obtain rfl := (State.holds_iff_of_not_taken hfree v).1 h
    have hram : (s.ramWrite addr (s.ramByte addr.toNat)).ram = s.ram :=
      Memory.write_of_read hinv.memory (Nat.le_of_lt_succ addr.isLt)
    rw [State.busWrite_of_not_taken hfree, State.ramWrite_frame, hram, ← hreturned]

/-! Sequences of writes that reach the UART nowhere. -/

/-- Every transaction is a write that does not reach the UART. -/
def WritesOffUart (c : Config) (ts : List Transaction) : Prop :=
  ∀ t ∈ ts, t.isWrite = true ∧ writeTakenBy c t.addr ≠ some .uartWr

/-- Such a write returns nothing, and no halt request (R90, R220). -/
theorem State.transact_returned_offUart {s : State} {t : Transaction} (hw : t.isWrite = true)
    (hnot : writeTakenBy s.config t.addr ≠ some .uartWr) : (s.transact t).returned = some ⟨none, false⟩ := by
  rw [State.transact_of_isWrite hw]
  rcases writeTakenBy_cases hnot with htaken | hfree
  · rw [State.busWrite_of_conWr htaken, State.conWrite_frame]
  · rw [State.busWrite_of_not_taken hfree, State.ramWrite_frame]

theorem State.transactAll_returned_offUart {s : State} {ts : List Transaction} (hts : WritesOffUart s.config ts)
    (h : ts ≠ [] ∨ s.returned = some ⟨none, false⟩) : (s.transactAll ts).returned = some ⟨none, false⟩ := by
  induction ts generalizing s with
  | nil => exact h.resolve_left fun hne => hne rfl
  | cons t ts ih =>
    obtain ⟨⟨hw, hnot⟩, htail⟩ := List.forall_mem_cons.1 hts
    refine ih ?_ (.inr (State.transact_returned_offUart hw hnot))
    rwa [State.transact_config]

theorem State.Holds.transactAll {s : State} (hinv : s.Inv) {addr : Address} {v : Byte} (h : s.Holds addr v)
    {ts : List Transaction} (hts : WritesOffUart s.config ts) (hne : ∀ t ∈ ts, addr ≠ t.addr) :
    (s.transactAll ts).Holds addr v := by
  induction ts generalizing s with
  | nil => exact h
  | cons t ts ih =>
    obtain ⟨⟨hw, hnot⟩, htail⟩ := List.forall_mem_cons.1 hts
    obtain ⟨hhead, hrest⟩ := List.forall_mem_cons.1 hne
    refine ih (hinv.transact t) ?_ ?_ hrest
    · rw [State.transact_of_isWrite hw]
      exact h.busWrite hinv hhead hnot _ _
    · rwa [State.transact_config]

/-- After writes to different addresses the state holds every one of them. -/
theorem State.Inv.transactAll_holds {s : State} (hinv : s.Inv) {ts : List Transaction}
    (hts : WritesOffUart s.config ts) (hdistinct : ts.Pairwise fun t t' => t.addr ≠ t'.addr) :
    ∀ t ∈ ts, (s.transactAll ts).Holds t.addr t.wdata := by
  induction ts generalizing s with
  | nil => exact fun _ ht => nomatch ht
  | cons t ts ih =>
    obtain ⟨⟨hw, hnot⟩, htail⟩ := List.forall_mem_cons.1 hts
    obtain ⟨hhead, hrest⟩ := List.pairwise_cons.1 hdistinct
    have htail' : WritesOffUart (s.transact t).config ts := by rwa [State.transact_config]
    refine List.forall_mem_cons.2 ⟨?_, ih (hinv.transact t) htail' hrest⟩
    refine State.Holds.transactAll (hinv.transact t) ?_ htail' hhead
    rw [State.transact_of_isWrite hw]
    exact hinv.holds_busWrite hnot _ _

/-- Writes of what the state holds change nothing. -/
theorem State.Inv.transactAll_of_holds {s : State} (hinv : s.Inv) (hreturned : s.returned = some ⟨none, false⟩)
    {ts : List Transaction} (hts : ∀ t ∈ ts, t.isWrite = true ∧ s.Holds t.addr t.wdata) : s.transactAll ts = s := by
  induction ts with
  | nil => rfl
  | cons t ts ih =>
    obtain ⟨⟨hw, hholds⟩, htail⟩ := List.forall_mem_cons.1 hts
    rw [State.transactAll_cons, State.transact_of_isWrite hw, hinv.busWrite_of_holds hholds hreturned, ih htail]

/-- Writes to different addresses, none the UART's, done twice are done once. -/
theorem State.Inv.transactAll_idem {s : State} (hinv : s.Inv) {ts : List Transaction}
    (hts : WritesOffUart s.config ts) (hdistinct : ts.Pairwise fun t t' => t.addr ≠ t'.addr) :
    (s.transactAll ts).transactAll ts = s.transactAll ts := by
  by_cases hempty : ts = []
  · rw [hempty]; rfl
  · have hholds := hinv.transactAll_holds hts hdistinct
    exact (hinv.transactAll ts).transactAll_of_holds (State.transactAll_returned_offUart hts (.inl hempty))
      fun t ht => ⟨(hts t ht).1, hholds t ht⟩

/-- Settles O38: a LOAD off the UART is writes to different addresses, which leave `running` and the CPU alone. -/
theorem loadTwiceIsLoadOnce : Obligations.LoadTwiceIsLoadOnce := by
  intro s bs start hinv h hrange hcover
  have hts : WritesOffUart s.config (loadWrites s.cpu.pc start bs) := fun t ht => by
    obtain ⟨hw, hlo, hhi⟩ := loadWrites_range hrange ht
    refine ⟨hw, ?_⟩
    rw [Ne, writeTakenBy_eq_uartWr_iff s.config_wellFormed]
    omega
  have hhalted : (s.transactAll (loadWrites s.cpu.pc start bs)).running = false := by
    refine Bool.eq_false_iff.2 fun hrun => ?_
    rw [(State.HaltsOnce.transactAll s _).noStart hrun] at h
    cases h
  refine ⟨_, exec_load_of_le h hrange, ?_⟩
  rw [exec_load_of_le hhalted hrange, State.transactAll_cpu, hinv.transactAll_idem hts (loadWrites_pairwise hrange)]

end Sys2Proof.Machine
end
